-- ==== Sys2Proof/Machine/Ports.lean ====
section
/-! DEFINITION. The ports of an instance of width `W` (spec/00_scope.md R7; spec/10_state.md R17, R18): all the
visible state the spec gives the block, and one counter of the model's own for free values. -/

namespace Sys2Proof.Machine

/-- R18: the two input ports. -/
inductive InPort where
  /-- The minuend. -/
  | a
  /-- The subtrahend. -/
  | b
deriving DecidableEq, Repr

/-- R28, R101, R111: what the host has connected to an input port. Only `driven` is a value of the port: the
model is two-valued. The other two are connections in which the host breaks a duty. The model lets the host make
such a connection and refuses the EVALUATION of it (DESIGN CHOICE, notes/assumptions/2.md). -/
inductive Drive (W : Nat) where
  /-- R28: every bit is driven with a definite 0 or 1. -/
  | driven (v : BitVec W)
  /-- R28: at least one bit is left undriven, unknown or high-impedance. -/
  | undriven
  /-- R111: `result` is wired to the port with no storage in between. -/
  | looped
deriving DecidableEq, Repr

/-- R109, R110: the output port. -/
inductive Output (W : Nat) where
  /-- An evaluation has ended and `result` holds this value, stable. -/
  | settled (v : BitVec W)
  /-- An evaluation has not ended: `result` is unspecified and a read may give any value. -/
  | settling
deriving DecidableEq, Repr

/-- R17, R18: the ports of an instance of width `W`. Nothing else of the block outlives an evaluation. -/
structure Ports (W : Nat) where
  /-- R18: input port `a`, the minuend. -/
  a : Drive W
  /-- R18: input port `b`, the subtrahend. -/
  b : Drive W
  /-- R18: output port `result`. -/
  result : Output W
  /-- THE MODEL'S OWN, no state of the block: how many reads of an unsettled `result` have been made; it tells
  one free value from the next (notes/assumptions/4.md, 5.md). -/
  draws : Nat
deriving DecidableEq, Repr

/-- R29, R106: the block has nothing to reset, and the spec gives the ports no reset value. The two inputs are
driven by the host at all times (R29); DESIGN CHOICE (notes/assumptions/3.md): with 0. No evaluation has ended,
so `result` is unspecified (R110). No free value has been drawn (notes/assumptions/5.md). -/
def Ports.powerUp (W : Nat) : Ports W :=
  { a := .driven 0, b := .driven 0, result := .settling, draws := 0 }

end Sys2Proof.Machine
end

