-- ==== Sys2Proof/Config.lean ====
section
/-! DEFINITION. What an instance of the block fixes when it is built (spec/00_scope.md R7, R9), and the one
value the spec leaves open (spec/70_reset_and_hazards.md R110). -/

namespace Sys2Proof

/-- R7: the width `W` of the instance that `Sys2Proof.Machine.State` and `Sys2Proof.Instr` are: the normative
one, `W = 32`. The block itself (its ports, operation word, instruction, step and host) takes its width as an
argument, here and in every file of `Sys2Proof/Machine/` (R7, R63). -/
abbrev Config.width : Nat := 32

/-- R110: what the host reads at `result` while an evaluation has not ended: any `W`-bit value. FREE VALUE
(notes/assumptions/4.md): the constant has no body that a proof can use. It depends on the width, on which
instance is read (R96: instances are told apart by a number of the host's, for this alone), and on all that the
ports hold: what is connected to the inputs, and how many such reads came before. DESIGN CHOICE: on nothing
else, so that two runs that bring one instance to equal ports read one value there. -/
opaque Config.unsettledResult : (W : Nat) → (instanceNo : Nat) → Machine.Ports W → BitVec W

end Sys2Proof
end

