-- ==== Sys2Proof/Word.lean ====
section
/-! DEFINITION. The words of the instance: operands and result of `W` bits (spec/00_scope.md R7, R11), the
operation word of `2W` bits (spec/30_encoding.md R43). -/

namespace Sys2Proof

/-- R11, R18: the value of a port, a bit pattern of `W` bits; bit 0 is the least significant (R10). -/
abbrev Word : Type := BitVec Config.width

/-- R43, R48: an operation word of the instance, exactly `2W` bits. -/
abbrev OpWord : Type := BitVec (2 * Config.width)

end Sys2Proof
end

