-- ==== Sys2Proof/Syntax.lean ====
section
/-! DEFINITION. The one operation of the opcode table (spec/30_encoding.md R46), for the instance and at every
width, the operand literals of the assembler-style notation (R15, R50), and the one pseudo-instruction (R51). -/

namespace Sys2Proof

/-- R46: the opcode map has one entry. `SUB` carries its two operands whole, as bit patterns (R44): no
immediate, no register specifier, no mode. -/
inductive Instr where
  /-- R53: `SUB a, b`, the minuend `a` less the subtrahend `b`. -/
  | sub (a b : Word)
deriving DecidableEq, Repr

/-- R46, R63: the same entry on an instance of width `W`. -/
inductive BlockInstr (W : Nat) where
  /-- R53: `SUB a, b`. -/
  | sub (a b : BitVec W)
deriving DecidableEq, Repr

/-- R50: an operand as the assembler-style notation writes it. -/
inductive Literal where
  /-- A hex literal, `0x…`: the number its digits write (R11). -/
  | hex (n : Nat)
  /-- A signed decimal integer, read as `bv_W` of it (R15). -/
  | dec (x : Int)
deriving DecidableEq, Repr

/-- R50, R51: a line of the notation: the operation, or the pseudo-instruction `NEG b`, which is
`SUB 0, b`. -/
inductive AsmLine where
  | sub (a b : Literal)
  | neg (b : Literal)
deriving DecidableEq, Repr

end Sys2Proof
end

