-- ==== Sys2Proof/WellFormed.lean ====
section
/-! DEFINITION. What is checked before a term is used: the width of an operation word (spec/30_encoding.md
R48, R49) and the size of a hex literal (spec/00_scope.md R11). An instruction itself needs no check: every
operand pattern is valid (R47). -/

namespace Sys2Proof

/-- R47: no operation word is illegal, reserved, a hint or custom. Every operand of the instance's width is
valid, so that every term of `Instr` is well formed. -/
def Instr.wellFormed : Instr → Bool
  | .sub _ _ => true

/-- R48, R49: an instance of width `W` accepts words of exactly `2W` bits. -/
def opWidthOk (W nbits : Nat) : Bool := nbits == 2 * W

/-- R11, R15: a hex literal names a pattern of the instance's width, so its number fits `W` bits. A decimal
is read by `bv_W`, which takes every integer. -/
def Literal.wellFormed (W : Nat) : Literal → Bool
  | .hex n => decide (n < 2 ^ W)
  | .dec _ => true

/-- A line is well formed when its literals are. -/
def AsmLine.wellFormed (W : Nat) : AsmLine → Bool
  | .sub a b => a.wellFormed W && b.wellFormed W
  | .neg b => b.wellFormed W

end Sys2Proof
end

