-- ==== Sys2Proof/Decode.lean ====
section
/-! DEFINITION. The operation word (spec/30_encoding.md R43 to R49): its fields, the decoder and the encoder, at
every width and for the instance. -/

namespace Sys2Proof

/-- R43: the minuend field of a word of `2W` bits, `op[2W-1:W]`. -/
def minuendField {W : Nat} (op : BitVec (2 * W)) : BitVec W := op.extractLsb' W W

/-- R43: the subtrahend field, `op[W-1:0]`. -/
def subtrahendField {W : Nat} (op : BitVec (2 * W)) : BitVec W := op.extractLsb' 0 W

/-- R43: the word `(a, b)` written with `a` in the more significant half (R11's concatenation). -/
def packOperands {W : Nat} (a b : BitVec W) : BitVec (2 * W) := (a ++ b).cast (Nat.two_mul W).symm

/-- R46: the decoder of an instance of width `W`. Every word of `2W` bits is `SUB` of its two fields; it never
rejects one (R47). -/
def decodeAt {W : Nat} (op : BitVec (2 * W)) : BlockInstr W := .sub (minuendField op) (subtrahendField op)

/-- R43: the encoder of an instance of width `W`, `op = (a, b)`. -/
def encodeAt {W : Nat} : BlockInstr W → BitVec (2 * W)
  | .sub a b => packOperands a b

/-- Why a word given with its width is not decoded by an instance. -/
inductive DecodeRefusal where
  /-- R49: the word is not of `2W` bits; it belongs to another instance. Safe: the spec refuses it too. -/
  | wrongWidth (nbits : Nat)
deriving DecidableEq, Repr

/-- R48, R49: the decoder of an instance of width `W` on a word of any width: a word of `2W` bits is decoded,
any other is refused by name. -/
def decodeBitsAt (W nbits : Nat) (op : BitVec nbits) : Except DecodeRefusal (BlockInstr W) :=
  if h : nbits = 2 * W then .ok (decodeAt (op.cast h)) else .error (.wrongWidth nbits)

/-- The instruction of the machine for an instruction of a block of its width. -/
def Instr.ofBlock : BlockInstr Config.width → Instr
  | .sub a b => .sub a b

/-- The instruction of a block of the machine's width for an instruction of the machine. -/
def Instr.toBlock : Instr → BlockInstr Config.width
  | .sub a b => .sub a b

/-- R46: the decoder of the machine. -/
def decode (op : OpWord) : Instr := Instr.ofBlock (decodeAt op)

/-- R43: the encoder of the machine. -/
def encode (i : Instr) : OpWord := encodeAt i.toBlock

/-- The instruction that the decoder reads from a word of `nbits` bits numbered as the opcode table numbers
them: bit 0 is the least significant bit of the one operation word. -/
def decodeTableWord (nbits w : Nat) : Option Instr :=
  (decodeBitsAt Config.width nbits (BitVec.ofNat nbits w)).toOption.map Instr.ofBlock

end Sys2Proof
end

