-- ==== Sys2Proof/Machine/Bits.lean ====
section
/-! DEFINITION. The spec's constants and readings of bit-vectors, at every width (spec/00_scope.md R11 to R13,
R15). The operators of R12 are Lean's own on `BitVec`: NOT, AND, OR, XOR, and the logical left shift that fills
with 0 and discards what passes bit `W-1`. -/

namespace Sys2Proof.Machine

/-- R11: `ONE`, the vector with only bit 0 set. -/
def one (W : Nat) : BitVec W := 1#W

/-- R11: `ALL1`, the vector with every bit set. -/
def all1 (W : Nat) : BitVec W := BitVec.allOnes W

/-- R13: the unsigned reading, the sum of `v[i] * 2^i`. -/
def uint {W : Nat} (v : BitVec W) : Nat := v.toNat

/-- R13: the signed reading, `uint_W(v) - 2^W * v[W-1]`. -/
def sint {W : Nat} (v : BitVec W) : Int := (uint v : Int) - 2 ^ W * (v.msb.toNat : Int)

/-- R13: the vector whose unsigned reading is `x mod 2^W`, for any integer `x`. -/
def bv (W : Nat) (x : Int) : BitVec W := BitVec.ofInt W x

/-- R13: `INT_MIN = bv_W(2^(W-1))`. -/
def intMin (W : Nat) : BitVec W := bv W (2 ^ (W - 1))

/-- R13: `INT_MAX = bv_W(2^(W-1) - 1)`. -/
def intMax (W : Nat) : BitVec W := bv W (2 ^ (W - 1) - 1)

/-- R11: `v[i:0]`, the low `i + 1` bits of `v`, as the unsigned number they write. -/
def lowBits {W : Nat} (v : BitVec W) (i : Nat) : Nat := (v.extractLsb' 0 (i + 1)).toNat

end Sys2Proof.Machine
end

