-- ==== Sys2Proof/Machine/Network.lean ====
section
/-! DEFINITION. The block's internal structure at every width: the parallel-prefix network of
spec/41_prefix_network.md R68 to R80, and beside it the arithmetic contract of spec/40_subtract.md R53 that the
network meets (R84). The signals are local values of an evaluation and have no place in the state (R26). -/

namespace Sys2Proof.Machine

/-! ## The contract -/

/-- R53: the contract, `bv_W(uint_W(a) - uint_W(b))`. -/
def subtract {W : Nat} (a b : BitVec W) : BitVec W := bv W ((uint a : Int) - (uint b : Int))

/-! ## Stage count and spans -/

/-- The first `n`, from the given start on, with `2^n >= W`, looked for at most `fuel` times. -/
def stagesFrom (W : Nat) : Nat → Nat → Nat
  | 0, n => n
  | fuel + 1, n => if W ≤ 2 ^ n then n else stagesFrom W fuel (n + 1)

/-- R8: `n(W)`, the least `n` with `2^n >= W`. -/
def stageCount (W : Nat) : Nat := stagesFrom W W 0

/-- R8: the span of stage `k`, `s_k = 2^k`. -/
def span (k : Nat) : Nat := 2 ^ k

/-! ## Seeds: steps 1 to 3 -/

/-- R69: `nb`, the complement of the subtrahend. -/
def complement {W : Nat} (b : BitVec W) : BitVec W := ~~~b

/-- R70: `G_raw`, where both addend bits are 1. -/
def rawGenerate {W : Nat} (a nb : BitVec W) : BitVec W := a &&& nb

/-- R71: `P_0`, where exactly one addend bit is 1. -/
def propagateSeed {W : Nat} (a nb : BitVec W) : BitVec W := a ^^^ nb

/-- R72: `G_0`, with the `+1` of two's-complement negation injected as a carry into bit 0. -/
def injectCarry {W : Nat} (gRaw p0 : BitVec W) : BitVec W := gRaw ||| (p0 &&& one W)

/-- The signals `G_k` and `P_k` of one level of the network. -/
structure GenProp (W : Nat) where
  g : BitVec W
  p : BitVec W
deriving DecidableEq, Repr

/-- R69 to R72: level 0, `G_0` and `P_0`. The injection leaves `P_0` as it is. -/
def seedLevel {W : Nat} (a b : BitVec W) : GenProp W :=
  let nb := complement b
  let p0 := propagateSeed a nb
  { g := injectCarry (rawGenerate a nb) p0, p := p0 }

/-! ## Prefix stages: step 4 -/

/-- R74: `G_{k+1}` from the signals of level `k`; the shifted operand is `G_k` (R76). -/
def combineGenerate {W : Nat} (k : Nat) (l : GenProp W) : BitVec W := l.g ||| (l.p &&& (l.g <<< span k))

/-- R75: `P_{k+1}` from the signals of level `k`. -/
def combinePropagate {W : Nat} (k : Nat) (l : GenProp W) : BitVec W := l.p &&& (l.p <<< span k)

/-- R73: stage `k` reads level `k` and defines level `k + 1`. Both combinations read the old `P_k` (R75). -/
def prefixStage {W : Nat} (k : Nat) (l : GenProp W) : GenProp W :=
  { g := combineGenerate k l, p := combinePropagate k l }

/-- R73: the signals after the first `k` stages. -/
def prefixLevel {W : Nat} (a b : BitVec W) : Nat → GenProp W
  | 0 => seedLevel a b
  | k + 1 => prefixStage k (prefixLevel a b k)

/-! ## Sum: step 5 -/

/-- R78: the final sum, `P_0 ^ (G_n << 1) ^ ONE`. -/
def finalSum {W : Nat} (p0 gFinal : BitVec W) : BitVec W := p0 ^^^ (gFinal <<< 1) ^^^ one W

/-- R85: what the network would give with `m` prefix stages in place of `n(W)`. -/
def networkSubAfter {W : Nat} (m : Nat) (a b : BitVec W) : BitVec W :=
  finalSum (seedLevel a b).p (prefixLevel a b m).g

/-- R68 to R78: the block, as the function from an input pair to its settled result (R17). It has exactly
`n(W)` stages (R85), and the same operations in the same order for every input pair (R113). -/
def networkSub {W : Nat} (a b : BitVec W) : BitVec W := networkSubAfter (stageCount W) a b

/-! ## Forms the spec allows or names -/

/-- R77: the network with the last propagate vector `P_n` left out: the last stage combines only the generate
vector. -/
def networkSubOmittingLast {W : Nat} (a b : BitVec W) : BitVec W :=
  match stageCount W with
  | 0 => finalSum (seedLevel a b).p (seedLevel a b).g
  | k + 1 => finalSum (seedLevel a b).p (combineGenerate k (prefixLevel a b k))

/-- R80: the straight-line program of the network at `W = 32`, one line per signal, `P_5` left out. -/
def straightLine32 (a b : BitVec 32) : BitVec 32 :=
  let nb := ~~~b
  let gRaw := a &&& nb
  let p0 := a ^^^ nb
  let g0 := gRaw ||| (p0 &&& 0x00000001#32)
  let g1 := g0 ||| (p0 &&& (g0 <<< 1))
  let p1 := p0 &&& (p0 <<< 1)
  let g2 := g1 ||| (p1 &&& (g1 <<< 2))
  let p2 := p1 &&& (p1 <<< 2)
  let g3 := g2 ||| (p2 &&& (g2 <<< 4))
  let p3 := p2 &&& (p2 <<< 4)
  let g4 := g3 ||| (p3 &&& (g3 <<< 8))
  let p4 := p3 &&& (p3 <<< 8)
  let g5 := g4 ||| (p4 &&& (g4 <<< 16))
  p0 ^^^ (g5 <<< 1) ^^^ 0x00000001#32

/-! ## Carries of `a + ~b + 1`, the reference of the derived facts -/

/-- R83: the ripple carries `c_i` of `a + nb + 1`, by the full adder's carry equation, `c_0 = 1`. -/
def rippleCarry {W : Nat} (a nb : BitVec W) : Nat → Bool
  | 0 => true
  | i + 1 =>
    (a.getLsbD i && nb.getLsbD i) || (a.getLsbD i && rippleCarry a nb i) || (nb.getLsbD i && rippleCarry a nb i)

/-- R82: the per-bit generate `g_j`, with the carry into bit 0 folded into `g_0`. -/
def bitGenerate {W : Nat} (a nb : BitVec W) (j : Nat) : Bool :=
  if j = 0 then a.getLsbD 0 || nb.getLsbD 0 else a.getLsbD j && nb.getLsbD j

/-- R27: the final carry `G_n[W-1]`, the carry out of the whole addition. Internal: no port shows it. -/
def finalCarry {W : Nat} (a b : BitVec W) : Bool := (prefixLevel a b (stageCount W)).g.getLsbD (W - 1)

/-- R83: the subtraction `a - b` borrows out of bit `i`, by the borrow rule of the subtraction: with no borrow
into bit 0, bit `i` borrows when its minuend bit is below what is taken from it. -/
def borrowOut {W : Nat} (a b : BitVec W) : Nat → Bool
  | 0 => !a.getLsbD 0 && b.getLsbD 0
  | i + 1 =>
    decide ((a.getLsbD (i + 1)).toNat < (b.getLsbD (i + 1)).toNat + (borrowOut a b i).toNat)

end Sys2Proof.Machine
end

