-- ==== Sys2Proof/Machine/State.lean ====
section
/-! DEFINITION. The state of the machine: the ports of the instance (spec/10_state.md R17, R18). The block has no
register, program counter, flag, control field or memory (R20 to R25), and none of its internal signals has a
place here (R26). -/

namespace Sys2Proof.Machine

/-- R17, R18: the ports of the instance of width `Config.width`: inputs `a` and `b`, output `result`, and the
model's own counter `draws`. -/
structure State extends Ports Config.width
deriving DecidableEq, Repr

/-- R88: the block raises no exception for any operand pair and a model of it has no fault outcome, so this
type has no constructor. -/
inductive Fault
deriving DecidableEq, Repr

/-- Why a step has no meaning. Each but the first is a refusal of what the host connected, not an exception of
the block (R88). -/
inductive Refusal where
  /-- An instruction of the opcode table with no meaning yet. Raised by no arm: the table's one row has its
  meaning. Safe. -/
  | notModelled (mnemonic : String)
  /-- R28: the host left a bit of the named port undriven or unknown. Raised by `step`. Safe: the spec
  refuses the evaluation too. -/
  | undrivenInput (port : InPort)
  /-- R111: the host wired `result` straight back to the named port. Raised by `step`. Safe: the spec refuses
  the loop too. -/
  | combinationalFeedback (port : InPort)
deriving DecidableEq, Repr

/-- R29, R106: the ports of the instance at power-up (notes/assumptions/3.md, 5.md). -/
def State.reset : State := { toPorts := Ports.powerUp Config.width }

end Sys2Proof.Machine
end

