-- ==== Sys2Proof/Machine/Ops.lean ====
section
/-! DEFINITION. The named operations over the ports, at every width: driving an input, presenting the operation
word that the ports stand for, ending an evaluation, reading `result` (spec/60_exceptions.md R101;
spec/70_reset_and_hazards.md R108 to R111); and the machine's, which are those of its width. Taking an exception
and returning from one are no operations of this block: it takes none (spec/60_exceptions.md R88, R92, R93). -/

namespace Sys2Proof.Machine

/-- R101, R109: the host changes what is connected to one input port. An evaluation begins, so `result` is
unspecified until it ends (R110). DESIGN CHOICE (notes/assumptions/6.md): also where the port already holds what
is connected. -/
def Ports.drive {W : Nat} (p : Ports W) (port : InPort) (d : Drive W) : Ports W :=
  match port with
  | .a => { p with a := d, result := .settling }
  | .b => { p with b := d, result := .settling }

/-- R91, R109: the host applies an input pair, both inputs at once. -/
def Ports.drivePair {W : Nat} (p : Ports W) (x y : BitVec W) : Ports W :=
  { p with a := .driven x, b := .driven y, result := .settling }

/-- R28, R111: the value on an input port, or why the evaluation is refused. -/
def portValue {W : Nat} (port : InPort) : Drive W → Except Refusal (BitVec W)
  | .driven v => .ok v
  | .undriven => .error (.undrivenInput port)
  | .looped => .error (.combinationalFeedback port)

/-- R43, R46: the operation word that the pair on the input ports stands for. Presenting the pair is the whole
command: nothing is fetched from a memory. Port `a` is looked at first (notes/assumptions/10.md). -/
def Ports.presented {W : Nat} (p : Ports W) : Except Refusal (BitVec (2 * W)) :=
  match portValue .a p.a with
  | .error r => .error r
  | .ok x =>
    match portValue .b p.b with
    | .error r => .error r
    | .ok y => .ok (packOperands x y)

/-- R34, R109: one evaluation, from the pair applied to the settled result, as one indivisible transition. It
leaves the pair on the input ports and writes nothing but `result`. -/
def Ports.evaluate {W : Nat} (p : Ports W) (x y : BitVec W) : Ports W :=
  { p.drivePair x y with result := .settled (networkSub x y) }

/-- R102, R109, R110: the host reads `result` of the instance with the given number: the settled value, or,
before the output has settled, any value (the free value, and the count of such reads goes up). DESIGN CHOICES:
what the free value depends on (notes/assumptions/4.md), so that early reads of two instances (R38, R96), of two
pairs or at two times need not agree; and that a read made while an input is undriven or looped is such an early
read, and is not refused (notes/assumptions/2.md). -/
def Ports.readResult {W : Nat} (p : Ports W) (instanceNo : Nat) : BitVec W × Ports W :=
  match p.result with
  | .settled v => (v, p)
  | .settling => (Config.unsettledResult W instanceNo p, { p with draws := p.draws + 1 })

/-- R33, R49: the host presents a word of `nbits` bits. A word of `2W` bits is the pair of its fields; a word
of another width fits the ports of no operand, so neither input is driven (notes/assumptions/9.md). -/
def Ports.presentWord {W : Nat} (p : Ports W) (nbits w : Nat) : Ports W :=
  if opWidthOk W nbits then
    p.drivePair (minuendField (BitVec.ofNat (2 * W) w)) (subtrahendField (BitVec.ofNat (2 * W) w))
  else (p.drive .a .undriven).drive .b .undriven

/-! ## The machine's -/

/-- `Ports.drive` on the machine. -/
def State.drive (s : State) (port : InPort) (d : Drive Config.width) : State :=
  { toPorts := s.toPorts.drive port d }

/-- `Ports.drivePair` on the machine. -/
def State.drivePair (s : State) (x y : Word) : State := { toPorts := s.toPorts.drivePair x y }

/-- `Ports.evaluate` on the machine. -/
def State.evaluate (s : State) (x y : Word) : State := { toPorts := s.toPorts.evaluate x y }

/-- `Ports.presentWord` on the machine. -/
def State.presentWord (s : State) (nbits w : Nat) : State := { toPorts := s.toPorts.presentWord nbits w }

/-- What the machine's outcome is where a block of its width has the given one. -/
def liftOutcome : Host.Outcome (Ports Config.width) Fault Refusal → Host.Outcome State Fault Refusal
  | .next p => .next { toPorts := p }
  | .fault f => .fault f
  | .refused r => .refused r

end Sys2Proof.Machine
end

