-- ==== Sys2Proof/Machine/Sub.lean ====
section
/-! DEFINITION. The meaning of `SUB`, the one instruction of the opcode table (spec/40_subtract.md R53). -/

namespace Sys2Proof.Machine

/-- R53, R61: `SUB a, b`. The pair is applied and the output settles to the network's result, for every operand
pair and in every state: no flag is written (R22), nothing is raised (R88), nothing else changes. -/
def execSub (a b : Word) (s : State) : Host.Outcome State Fault Refusal := .next (s.evaluate a b)

end Sys2Proof.Machine
end

