-- ==== Sys2Proof/Machine/Step.lean ====
section
/-! DEFINITION. The step: one evaluation of the pair that stands on the input ports (spec/20_memory.md R34;
spec/70_reset_and_hazards.md R109). `Block.lean` has it at every width. -/

namespace Sys2Proof.Machine

/-- R34, R46, R109: the block runs the operation word its input ports present. An evaluation whose inputs the
host leaves undriven (R28) or loops back (R111) is refused. -/
def step (s : State) : Host.Outcome State Fault Refusal :=
  match s.presented with
  | .ok op => exec (decode op) s
  | .error r => .refused r

/-- The state in which the host has just applied the pair of an operation word (R43, R109), so that the next
step evaluates it. The pair comes from outside the block (notes/assumptions/8.md). -/
def State.withFetchWord (s : State) (nbits w : Nat) : State := s.presentWord nbits w

end Sys2Proof.Machine
end

