-- ==== Sys2Proof/Machine/Flags.lean ====
section
/-! DEFINITION. The block has no flags and writes none (spec/10_state.md R22). These are the conditions that a
consumer may derive outside the block from the operands and `result` (R22; spec/40_subtract.md R55, R56). No
field of the state holds one. -/

namespace Sys2Proof.Machine

/-- R55: signed overflow, told from the sign bits of the operands and of the result. -/
def signedOverflow {W : Nat} (a b result : BitVec W) : Bool := (a.msb != b.msb) && (result.msb != a.msb)

/-- R56: the unsigned reading wraps, told from the operands. -/
def unsignedWrap {W : Nat} (a b : BitVec W) : Bool := decide (uint a < uint b)

end Sys2Proof.Machine
end

