-- ==== Sys2Proof/Machine/Block.lean ====
section
/-! DEFINITION. The block at every width (spec/00_scope.md R7; spec/40_subtract.md R63): its one instruction and
its step, on the ports of an instance of width `W`. The machine of `Dispatch.lean` and `Step.lean` is the instance
of width `Config.width`. -/

namespace Sys2Proof.Machine

/-- R53, R61: the meaning of the instruction on an instance of width `W`, for every operand pair and whatever
the ports hold. -/
def execAt {W : Nat} (i : BlockInstr W) (p : Ports W) : Host.Outcome (Ports W) Fault Refusal :=
  match i with
  | .sub a b => .next (p.evaluate a b)

/-- R34, R46, R109: the instance runs the operation word its input ports present. An evaluation whose inputs the
host leaves undriven (R28) or loops back (R111) is refused. -/
def stepAt {W : Nat} (p : Ports W) : Host.Outcome (Ports W) Fault Refusal :=
  match p.presented with
  | .ok op => execAt (decodeAt op) p
  | .error r => .refused r

end Sys2Proof.Machine
end

