-- ==== Sys2Proof/Machine/HostInterface.lean ====
section
/-! DEFINITION. The host at the ports, at every width: every action the host table of spec/60_exceptions.md R101
gives it, on one instance and on any number of instances side by side (R96). -/

namespace Sys2Proof.Machine

/-- R101: what the host may do, at any time and in any order. -/
inductive HostAction (W : Nat) where
  /-- Change what is connected to one input (a duty is broken by an undriven or looped one). -/
  | drive (port : InPort) (d : Drive W)
  /-- R91: apply a pair, both inputs at once. -/
  | drivePair (x y : BitVec W)
  /-- R108, R110: hold the inputs stable until the output has settled. -/
  | awaitSettled
  /-- Read `result`, settled or not. -/
  | readResult
deriving DecidableEq, Repr

/-- R101: the ports after an action on the instance with the given number, and what was read. Only waiting can
be refused: it is the evaluation of the pair the host holds. DESIGN CHOICE (notes/assumptions/2.md): the host may
connect an undriven or looped input, and may read while it stands (an early read, R110); R28 and R111 refuse, and
do not say at which action. -/
def hostAct {W : Nat} (instanceNo : Nat) (act : HostAction W) (p : Ports W) :
    Host.Outcome (Ports W × Option (BitVec W)) Fault Refusal :=
  match act with
  | .drive port d => .next (p.drive port d, none)
  | .drivePair x y => .next (p.drivePair x y, none)
  | .awaitSettled =>
    match stepAt p with
    | .next t => .next (t, none)
    | .fault f => .fault f
    | .refused r => .refused r
  | .readResult => .next ((p.readResult instanceNo).2, some (p.readResult instanceNo).1)

/-! ## Several instances -/

/-- Why an action on one of several instances has no meaning. Both are the host's, and safe. -/
inductive InstanceStop where
  /-- There is no instance with that number. -/
  | noInstance (k : Nat)
  /-- R28, R111: that instance's evaluation is refused. -/
  | refused (k : Nat) (r : Refusal)
deriving DecidableEq, Repr

/-- R96: the host acts on instance `k` of several. The instances share nothing. Evaluations overlap freely: one
begins where its inputs are driven and ends where the host has waited for it, whatever is done to the other
instances in between. -/
def actInstance {W : Nat} (k : Nat) (act : HostAction W) (blocks : List (Ports W)) :
    Except InstanceStop (List (Ports W) × Option (BitVec W)) :=
  match blocks[k]? with
  | none => .error (.noInstance k)
  | some p =>
    match hostAct k act p with
    | .next (t, v) => .ok (blocks.set k t, v)
    | .refused r => .error (.refused k r)

/-- R96: a run of actions on several instances, in the order the host makes them: the ports after it, and what
was read at which instance. -/
def runInstances {W : Nat} :
    List (Nat × HostAction W) → List (Ports W) → Except InstanceStop (List (Ports W) × List (Nat × BitVec W))
  | [], blocks => .ok (blocks, [])
  | (k, act) :: rest, blocks =>
    match actInstance k act blocks with
    | .error e => .error e
    | .ok (mid, v) =>
      match runInstances rest mid with
      | .error e => .error e
      | .ok (out, reads) => .ok (out, v.toList.map (fun x => (k, x)) ++ reads)

/-- R101: a run of actions on one instance alone: the ports after it, and what was read. -/
def runAlone {W : Nat} (instanceNo : Nat) :
    List (HostAction W) → Ports W → Host.Outcome (Ports W × List (BitVec W)) Fault Refusal
  | [], p => .next (p, [])
  | act :: rest, p =>
    match hostAct instanceNo act p with
    | .next (mid, v) =>
      match runAlone instanceNo rest mid with
      | .next (out, reads) => .next (out, v.toList ++ reads)
      | .refused r => .refused r
    | .refused r => .refused r

/-- The actions of a run that are made on instance `k`, in their order. -/
def actionsOn {W : Nat} (k : Nat) (script : List (Nat × HostAction W)) : List (HostAction W) :=
  (script.filter fun e => e.1 == k).map Prod.snd

/-- What a run reads at instance `k`, in its order. -/
def readsOf {W : Nat} (k : Nat) (reads : List (Nat × BitVec W)) : List (BitVec W) :=
  (reads.filter fun e => e.1 == k).map Prod.snd

end Sys2Proof.Machine
end

