-- ==== Sys2Proof/Machine/Operands.lean ====
section
/-! DEFINITION. The operand forms, at every width: the literals of the notation and the pseudo-instruction
(spec/00_scope.md R15; spec/30_encoding.md R44, R50, R51). -/

namespace Sys2Proof.Machine

/-- R15, R50: the port value a literal denotes. -/
def literalValue (W : Nat) : Literal → BitVec W
  | .hex n => bv W n
  | .dec x => bv W x

/-- R51: `NEG b` is `SUB 0, b`. -/
def expandNeg {W : Nat} (b : BitVec W) : BlockInstr W := .sub 0 b

/-- R50, R51: the operation that a line of the notation denotes; a line whose hex literal does not fit the
ports denotes none (notes/assumptions/15.md). -/
def assemble (W : Nat) (l : AsmLine) : Option (BlockInstr W) :=
  if l.wellFormed W then
    match l with
    | .sub a b => some (.sub (literalValue W a) (literalValue W b))
    | .neg b => some (expandNeg (literalValue W b))
  else none

end Sys2Proof.Machine
end

