-- ==== Sys2Proof/Machine/HostProgram.lean ====
section
/-! DEFINITION. Host programs, in the notation of spec/30_encoding.md R52, for a block of any width. The program, its named values and its
control flow belong to the host; the block sees only the input pairs of the SUB steps (R21, R65). -/

namespace Sys2Proof.Machine

/-- R52: an operand of a host step, a literal or a value the host holds. -/
inductive HostOperand (W : Nat) where
  | lit (v : BitVec W)
  | held (k : Nat)
deriving DecidableEq, Repr

/-- R52: a step of a host program. -/
inductive HostStep (W : Nat) where
  /-- `hK <- SUB x, y`. -/
  | sub (k : Nat) (x y : HostOperand W)
  /-- `hK <- NEG y`, the same as `hK <- SUB 0, y`. -/
  | neg (k : Nat) (y : HostOperand W)
  /-- `if hK == v goto L`. -/
  | ifEq (k : Nat) (v : HostOperand W) (line : Nat)
  /-- `goto L`. -/
  | goto (line : Nat)
  /-- `halt`. -/
  | halt
deriving DecidableEq, Repr

/-- The host and its block: the line to run (lines count from 1), the values held outside the block, in rising
order of their numbers, whether the program has ended, and the block. -/
structure HostState (W : Nat) where
  line : Nat
  held : List (Nat × BitVec W)
  halted : Bool
  block : Ports W
deriving DecidableEq, Repr

/-- Why a host program goes no further. All three are the host's, and safe: the notation gives no meaning
either (notes/assumptions/13.md). -/
inductive HostStop where
  /-- A step uses a value the host does not hold. -/
  | notHeld (k : Nat)
  /-- The program has no such line. -/
  | noLine (line : Nat)
  /-- The block refused the evaluation (R28, R111). -/
  | refused (r : Refusal)
deriving DecidableEq, Repr

/-- Holds `v` as `hK`, in place of what `hK` was. -/
def holdValue {W : Nat} (k : Nat) (v : BitVec W) : List (Nat × BitVec W) → List (Nat × BitVec W)
  | [] => [(k, v)]
  | (j, w) :: rest =>
    if k < j then (k, v) :: (j, w) :: rest
    else if k = j then (k, v) :: rest
    else (j, w) :: holdValue k v rest

/-- The value held as `hK`, if there is one. -/
def heldValue {W : Nat} (k : Nat) : List (Nat × BitVec W) → Option (BitVec W)
  | [] => none
  | (j, w) :: rest => if k = j then some w else heldValue k rest

/-- The value of an operand. -/
def operandValue {W : Nat} (held : List (Nat × BitVec W)) : HostOperand W → Except HostStop (BitVec W)
  | .lit v => .ok v
  | .held k =>
    match heldValue k held with
    | some v => .ok v
    | none => .error (.notHeld k)

/-- R52: apply `x` to port `a` and `y` to port `b`, wait for the result to settle, and read it: the value read
and the block after it. The host's one block is its instance 0. -/
def hostEvaluate {W : Nat} (x y : BitVec W) (block : Ports W) : Except HostStop (BitVec W × Ports W) :=
  match stepAt (block.drivePair x y) with
  | .next t => .ok (t.readResult 0)
  | .refused r => .error (.refused r)

/-- The host holds the outcome of an evaluation as `hK` and goes on with the next line. -/
def hostSubtract {W : Nat} (k : Nat) (x y : BitVec W) (h : HostState W) : Except HostStop (HostState W) :=
  match hostEvaluate x y h.block with
  | .ok (v, t) => .ok { h with line := h.line + 1, held := holdValue k v h.held, block := t }
  | .error e => .error e

/-- R52: one step of a host program. Control flow never reaches the block. -/
def runHostStep {W : Nat} (i : HostStep W) (h : HostState W) : Except HostStop (HostState W) :=
  match i with
  | .sub k x y =>
    match operandValue h.held x with
    | .error e => .error e
    | .ok u =>
      match operandValue h.held y with
      | .error e => .error e
      | .ok v => hostSubtract k u v h
  | .neg k y =>
    match operandValue h.held y with
    | .error e => .error e
    | .ok v => hostSubtract k 0 v h
  | .ifEq k v line =>
    match operandValue h.held (.held k) with
    | .error e => .error e
    | .ok u =>
      match operandValue h.held v with
      | .error e => .error e
      | .ok w => .ok (if u = w then { h with line := line } else { h with line := h.line + 1 })
  | .goto line => .ok { h with line := line }
  | .halt => .ok { h with halted := true }

/-- R52: the host runs the step of its program at the line it is at. An ended program stays as it is. -/
def hostStep {W : Nat} (prog : List (HostStep W)) (h : HostState W) : Except HostStop (HostState W) :=
  if h.halted then .ok h
  else
    match h.line with
    | 0 => .error (.noLine 0)
    | n + 1 =>
      match prog[n]? with
      | some i => runHostStep i h
      | none => .error (.noLine (n + 1))

/-- The start of a program: line 1, the given values held. -/
def hostStart {W : Nat} (held : List (Nat × BitVec W)) : HostState W :=
  { line := 1, held := held, halted := false, block := Ports.powerUp W }

end Sys2Proof.Machine
end

