-- ==== Sys2Proof/Machine/Harness.lean ====
section
/-! DEFINITION. Text: the notation's line of an evaluation (spec/30_encoding.md R50) and the reference harness
(spec/60_exceptions.md R103 to R105), the one host the source describes. The harness is outside the block and
these definitions bind nothing of it. The notation's line is written at every width; the harness is a 32-bit one
(R103). -/

namespace Sys2Proof.Machine

/-- The character of a hex digit, in capitals or not. -/
def hexDigit (capitals : Bool) (d : Nat) : Char :=
  if d < 10 then Char.ofNat (48 + d) else if capitals then Char.ofNat (55 + d) else Char.ofNat (87 + d)

/-- The last `k` hex digits of a number, the most significant first. -/
def hexDigits (capitals : Bool) (n : Nat) : Nat → List Char
  | 0 => []
  | k + 1 => hexDigit capitals (n / 16 ^ k % 16) :: hexDigits capitals n k

/-- R104: `0x%08x`, the unsigned bit-pattern view, zero-padded to 8 digits, small letters. -/
def harnessHex (v : Word) : List Char := "0x".toList ++ hexDigits false (uint v) 8

/-- R50: a value as the notation writes it, `0x` and the digits its width takes (eight at `W = 32`), in
capitals. -/
def notationHex {W : Nat} (v : BitVec W) : List Char := "0x".toList ++ hexDigits true (uint v) ((W + 3) / 4)

/-- R50: the line of one evaluation, `SUB a, b -> result`. -/
def evaluationLine {W : Nat} (a b result : BitVec W) : List Char :=
  "SUB ".toList ++ notationHex a ++ ", ".toList ++ notationHex b ++ " -> ".toList ++ notationHex result

/-- R103: the trials of one run of the harness. -/
def trialCount : Nat := 32

/-- R103: one trial: the block's result on a pair, and the expected value by native wraparound subtraction. -/
structure Trial where
  a : Word
  b : Word
  result : Word
  expected : Word
deriving DecidableEq, Repr

/-- R103: the trial of a pair on a block, given as the function from a pair to what the harness reads. -/
def trialOf (block : Word → Word → Word) (pair : Word × Word) : Trial :=
  { a := pair.1, b := pair.2, result := block pair.1 pair.2, expected := pair.1 - pair.2 }

/-- R104: the verdict, `PASS` when the result equals the expected value. -/
def Trial.passes (t : Trial) : Bool := t.result == t.expected

/-- R104: the line a trial prints. -/
def Trial.line (t : Trial) : List Char :=
  "a: ".toList ++ harnessHex t.a ++ ", b: ".toList ++ harnessHex t.b
    ++ ", result: ".toList ++ harnessHex t.result ++ ", expected: ".toList ++ harnessHex t.expected
    ++ ", ".toList ++ (if t.passes then "PASS".toList else "FAIL".toList)

/-- R103 to R105: what a run of the harness leaves behind. -/
structure HarnessRun where
  lines : List (List Char)
  exitStatus : Nat
deriving DecidableEq, Repr

/-- R103, R105: a run on the pairs drawn, a free input under no law: one line for each, in order, whatever the
verdicts, and exit status 0 whatever they are. -/
def harnessRun (block : Word → Word → Word) (pairs : Vector (Word × Word) trialCount) : HarnessRun :=
  { lines := pairs.toList.map fun p => (trialOf block p).line, exitStatus := 0 }

end Sys2Proof.Machine
end

