-- ==== Sys2Proof/Safety.lean ====
section
/-! DEFINITION. What a safe use of the block is, at every width: the host's duties (spec/70_reset_and_hazards.md
R108, R110, R111) and the coherence of the ports (spec/10_state.md R17). -/

namespace Sys2Proof.Machine

/-- R108: every bit of both inputs is driven, with the pair `(x, y)`. -/
def Ports.holdsPair {W : Nat} (p : Ports W) (x y : BitVec W) : Prop := p.a = .driven x ∧ p.b = .driven y

/-- R109: the output has settled to `v`. -/
def Ports.settledTo {W : Nat} (p : Ports W) (v : BitVec W) : Prop := p.result = .settled v

/-- R17, R109: at a settled instant the inputs are driven and `result` is the contract's function of them
(R53). -/
def Ports.Coherent {W : Nat} (p : Ports W) : Prop :=
  ∀ v, p.settledTo v → ∃ x y, p.holdsPair x y ∧ v = subtract x y

/-- R28, R111: why the evaluation of what the ports hold is refused, if it is. Port `a` is named first. -/
def Ports.dutyBroken {W : Nat} (p : Ports W) : Option Refusal :=
  match p.a, p.b with
  | .undriven, _ => some (.undrivenInput .a)
  | .looped, _ => some (.combinationalFeedback .a)
  | .driven _, .undriven => some (.undrivenInput .b)
  | .driven _, .looped => some (.combinationalFeedback .b)
  | .driven _, .driven _ => none

end Sys2Proof.Machine
end

