-- ==== Sys2Proof/Certificates/Slice0/Obligations.lean ====
section
/-! DEFINITION. The statements for the provers. Those about `State`, `Instr`, `exec` and `step` are about the
instance (`W = 32`); those about `Ports`, `BlockInstr`, `execAt`, `stepAt` and the network hold at every width, as
spec/00_scope.md R7 and spec/40_subtract.md R63 ask. -/

open Sys2Proof Sys2Proof.Machine

/-! ## The operation word -/

/-- R44, R46: at every width, every word of `2W` bits decodes to `SUB` with each operand taken whole from its
field, bit for bit, and presenting the word drives exactly those operands onto the ports; the machine's decoder
is that of its width. -/
def Obligations.OperandsTakenWholeFromTheirFields : Prop :=
  (∀ (W : Nat) (op : BitVec (2 * W)) (p : Ports W), ∃ a b : BitVec W,
      decodeAt op = .sub a b
        ∧ (∀ i, i < W → a.getLsbD i = op.getLsbD (W + i) ∧ b.getLsbD i = op.getLsbD i)
        ∧ (p.presentWord (2 * W) op.toNat).holdsPair a b)
    ∧ ∀ (op : OpWord) (s : State), ∃ a b : Word,
        decodeAt op = .sub a b ∧ decode op = .sub a b
          ∧ (s.presentWord (2 * Config.width) op.toNat).holdsPair a b

/-- R43, R46: decoding and encoding agree in both directions, for every instruction and every word, of the
machine and of a block of any width, and so do the fields and the packing; the opcode table's numbering of the
bits reads the same instruction. -/
def Obligations.DecodeAndEncodeAgree : Prop :=
  (∀ i : Instr, decode (encode i) = i ∧ decodeTableWord (2 * Config.width) (encode i).toNat = some i)
    ∧ (∀ op : OpWord, encode (decode op) = op)
    ∧ (∀ (W : Nat) (i : BlockInstr W), decodeAt (encodeAt i) = i)
    ∧ (∀ (W : Nat) (op : BitVec (2 * W)), encodeAt (decodeAt op) = op)
    ∧ (∀ (W : Nat) (a b : BitVec W),
        minuendField (packOperands a b) = a ∧ subtrahendField (packOperands a b) = b)
    ∧ (∀ (W : Nat) (op : BitVec (2 * W)), packOperands (minuendField op) (subtrahendField op) = op)

/-- R43, R46: words written out from the layout of the spec decode to the operation they stand for
(spec/95_test_vectors.md V1, V3, V5, V22). -/
def Obligations.WrittenOutWordsDecode : Prop :=
  decodeTableWord 64 0x0000000500000003 = some (.sub 0x00000005 0x00000003)
    ∧ decodeTableWord 64 0x7FFFFFFFFFFFFFFF = some (.sub 0x7FFFFFFF 0xFFFFFFFF)
    ∧ decodeTableWord 64 0x8000000000000001 = some (.sub 0x80000000 0x00000001)
    ∧ decodeTableWord 64 0xDEADBEEFCAFEBABE = some (.sub 0xDEADBEEF 0xCAFEBABE)

/-- R48, R49: an instance of width `W` decodes a word of `2W` bits and refuses a word of any other width by
name. -/
def Obligations.OnlyWordsOfTwiceTheWidthDecode : Prop :=
  ∀ (W n : Nat) (op : BitVec n),
    if n = 2 * W then ∃ a b : BitVec W, decodeBitsAt W n op = .ok (.sub a b)
    else decodeBitsAt W n op = .error (.wrongWidth n)

/-- R51: `NEG b` is `SUB 0, b`, at every width and for every literal the notation admits. -/
def Obligations.NegExpandsToSubFromZero : Prop :=
  ∀ (W : Nat) (b : Literal), assemble W (.neg b) = assemble W (.sub (.hex 0) b)
    ∧ (b.wellFormed W = true → assemble W (.neg b) = some (.sub 0 (literalValue W b)))

/-- R15: a signed decimal denotes `bv_W` of its integer; `-1` at `W = 32` is `0xFFFFFFFF`. -/
def Obligations.DecimalLiteralsDenoteTheirResidue : Prop :=
  (∀ (W : Nat) (x : Int), literalValue W (.dec x) = bv W x ∧ (uint (literalValue W (.dec x)) : Int) = x % 2 ^ W)
    ∧ literalValue 32 (.dec (-1)) = 0xFFFFFFFF

/-! ## Readings of bit-vectors -/

/-- R13: the readings as the sums of their bits, with their ranges, `bv_W(x)` as the one vector whose unsigned
reading is `x mod 2^W`, and the two named patterns, at every width and at `W = 32`. -/
def Obligations.ReadingsOfBitVectors : Prop :=
  (∀ (W : Nat) (v : BitVec W),
      uint v = ((List.range W).map fun i => (v.getLsbD i).toNat * 2 ^ i).sum ∧ uint v < 2 ^ W
        ∧ sint v = (uint v : Int) - 2 ^ W * ((v.getLsbD (W - 1)).toNat : Int)
        ∧ -2 ^ (W - 1) ≤ sint v ∧ sint v ≤ 2 ^ (W - 1) - 1)
    ∧ (∀ (W : Nat) (x : Int) (v : BitVec W), v = bv W x ↔ (uint v : Int) = x % 2 ^ W)
    ∧ (∀ W : Nat, intMin W = bv W (2 ^ (W - 1)) ∧ intMax W = bv W (2 ^ (W - 1) - 1))
    ∧ intMin 32 = 0x80000000#32 ∧ intMax 32 = 0x7FFFFFFF#32

/-! ## The step and the instruction on the ports -/

/-- R34, R46: a step runs the decoded instruction. Where the ports present an operation word, the step is the
meaning of its instruction in that state; where they hold a pair, of `SUB` of that pair; and the state made to
present an instruction's word runs that instruction. A block of any width does the same. -/
def Obligations.StepRunsThePresentedInstruction : Prop :=
  (∀ (s : State) (op : OpWord), s.presented = .ok op → step s = exec (decode op) s)
    ∧ (∀ (s : State) (x y : Word), s.holdsPair x y → step s = exec (.sub x y) s)
    ∧ (∀ (s : State) (i : Instr),
        step (s.withFetchWord (2 * Config.width) (encode i).toNat)
          = exec i (s.withFetchWord (2 * Config.width) (encode i).toNat))
    ∧ (∀ (W : Nat) (p : Ports W) (op : BitVec (2 * W)), p.presented = .ok op → stepAt p = execAt (decodeAt op) p)
    ∧ (∀ (W : Nat) (p : Ports W) (x y : BitVec W), p.holdsPair x y → stepAt p = execAt (.sub x y) p)
    ∧ ∀ (W : Nat) (p : Ports W) (i : BlockInstr W),
        stepAt (p.presentWord (2 * W) (encodeAt i).toNat) = execAt i (p.presentWord (2 * W) (encodeAt i).toNat)

/-- R7: the machine is the instance of width 32 of the block that is defined at every width: its instruction,
its step, its state after reset and its decoder are those of a block of that width. -/
def Obligations.MachineIsTheInstanceAt32 : Prop :=
  Config.width = 32
    ∧ (∀ (i : Instr) (s : State), exec i s = liftOutcome (execAt i.toBlock s.toPorts))
    ∧ (∀ s : State, step s = liftOutcome (stepAt s.toPorts))
    ∧ State.reset.toPorts = Ports.powerUp 32
    ∧ (∀ op : OpWord, (decode op).toBlock = decodeAt op)
    ∧ (∀ i : Instr, Instr.ofBlock i.toBlock = i) ∧ ∀ i, (Instr.ofBlock i).toBlock = i

/-- R53, R63: `SUB` on every operand pair and in every state answers a next state: `result` settled to
`bv_W(uint_W(a) - uint_W(b))`, the pair on the input ports, nothing else changed (no flag, no exception), on the
machine and on an instance of any width; with the corner cases and the worked example of the rule. -/
def Obligations.SubCompletesWithTheDifference : Prop :=
  (∀ (a b : Word) (s : State),
      exec (.sub a b) s = .next
        { a := .driven a, b := .driven b,
          result := .settled (bv Config.width ((uint a : Int) - (uint b : Int))), draws := s.draws })
    ∧ (∀ (W : Nat) (a b : BitVec W) (p : Ports W),
        execAt (.sub a b) p = .next
          { a := .driven a, b := .driven b,
            result := .settled (bv W ((uint a : Int) - (uint b : Int))), draws := p.draws })
    ∧ (∀ (W : Nat) (a b : BitVec W),
        subtract a b = bv W ((uint a : Int) - (uint b : Int)) ∧ subtract a b = a - b
          ∧ subtract a 0 = a ∧ subtract a a = 0 ∧ subtract 0 b = -b
          ∧ (uint a < uint b → (uint (subtract a b) : Int) = uint a - uint b + 2 ^ W))
    ∧ (∀ W : Nat, subtract 0 (intMin W) = intMin W ∧ subtract (intMin W) (one W) = intMax W
        ∧ subtract (intMax W) (bv W (-1)) = intMin W)
    ∧ subtract (0x00000005 : Word) 0x00000003 = 0x00000002

/-- R88: no operand pair is refused or raises anything, by `SUB` or by the step that evaluates it, and no step
ever faults, on the machine and at every width. -/
def Obligations.NoOperandPairStopsTheBlock : Prop :=
  (∀ (a b : Word) (s : State),
      (∃ t, exec (.sub a b) s = .next t)
        ∧ (∃ t, step (s.drivePair a b) = .next t)
        ∧ ∀ f, step s ≠ .fault f)
    ∧ ∀ (W : Nat) (a b : BitVec W) (p : Ports W),
        (∃ t, execAt (.sub a b) p = .next t)
          ∧ (∃ t, stepAt (p.drivePair a b) = .next t)
          ∧ ∀ f, stepAt p ≠ .fault f

/-- R28: an evaluation with an input left undriven is refused, on the machine and at every width. -/
def Obligations.UndrivenInputIsRefused : Prop :=
  (∀ s : State, s.a = .undriven ∨ s.b = .undriven → ∃ r, step s = .refused r)
    ∧ ∀ (W : Nat) (p : Ports W), p.a = .undriven ∨ p.b = .undriven → ∃ r, stepAt p = .refused r

/-- R28, R108, R111: the step is refused exactly when the host has broken a duty at the ports, for the reason
named, on the machine and at every width. The model's choices: the evaluation is what is refused, and not the
connection (notes/assumptions/2.md), and of two broken duties it names port `a`'s (notes/assumptions/10.md). -/
def Obligations.StepRefusesExactlyBrokenDuties : Prop :=
  (∀ s : State,
      match s.dutyBroken with
      | some r => step s = .refused r
      | none => ∃ x y t, s.holdsPair x y ∧ step s = .next t ∧ t.settledTo (subtract x y))
    ∧ ∀ (W : Nat) (p : Ports W),
        match p.dutyBroken with
        | some r => stepAt p = .refused r
        | none => ∃ x y t, p.holdsPair x y ∧ stepAt p = .next t ∧ t.settledTo (subtract x y)

/-- R17, R61: two blocks that hold one pair settle to one result, whatever else their states hold, and it is
the contract's, on the machine and at every width. -/
def Obligations.ResultDependsOnThePairAlone : Prop :=
  (∀ (s t : State) (x y : Word), s.holdsPair x y → t.holdsPair x y →
      ∃ s' t', step s = .next s' ∧ step t = .next t' ∧ s'.result = t'.result
        ∧ s'.settledTo (subtract x y))
    ∧ ∀ (W : Nat) (p q : Ports W) (x y : BitVec W), p.holdsPair x y → q.holdsPair x y →
        ∃ p' q', stepAt p = .next p' ∧ stepAt q = .next q' ∧ p'.result = q'.result
          ∧ p'.settledTo (subtract x y)

/-- R35: evaluating the same input pair any number of times gives the same result each time, and no side
effect: the state after one evaluation is the state after any number of them, on the machine; and a block of any
width that has evaluated its pair stays as it is when it evaluates it again. -/
def Obligations.RepeatedEvaluationChangesNothing : Prop :=
  (∀ (s t : State) (n : Nat), step s = .next t → Host.Core.run core (n + 1) s = .next t)
    ∧ ∀ (W : Nat) (p q : Ports W), stepAt p = .next q → stepAt q = .next q

/-- R106, R108: from any state, the state after reset among them, and with the inputs driven in either order or
both at once, one evaluation settles to `SUB` of the pair and a read then gives it, leaving the ports as they
are, at every width. No initialisation or first-evaluation case exists. -/
def Obligations.DrivingOrderDoesNotMatter : Prop :=
  (∀ (W k : Nat) (p : Ports W) (x y : BitVec W),
      (p.drive .a (.driven x)).drive .b (.driven y) = p.drivePair x y
        ∧ (p.drive .b (.driven y)).drive .a (.driven x) = p.drivePair x y
        ∧ ∃ t, stepAt (p.drivePair x y) = .next t ∧ t.readResult k = (subtract x y, t))
    ∧ ∀ (k : Nat) (s : State) (x y : Word),
        (s.drive .a (.driven x)).drive .b (.driven y) = s.drivePair x y
          ∧ (s.drive .b (.driven y)).drive .a (.driven x) = s.drivePair x y
          ∧ ∃ t, step (s.drivePair x y) = .next t ∧ t.readResult k = (subtract x y, t.toPorts)

/-- R110, in the model's form. After the host connects anything to an input the output is unsettled, and a read
gives the free value of the instance and its ports, counts it, leaves the connections as they are and the output
unsettled. Three clauses are the model's choice: that this holds also where the port already holds what is
connected (notes/assumptions/6.md; R110 speaks of a change), that a read made while an input is undriven or looped
is not refused (notes/assumptions/2.md), and what the free value depends on (notes/assumptions/4.md). -/
def Obligations.EarlyReadGivesAFreeValue : Prop :=
  ∀ (W k : Nat) (p : Ports W) (port : InPort) (d : Drive W),
    (p.drive port d).result = .settling
      ∧ (p.drive port d).readResult k
          = (Config.unsettledResult W k (p.drive port d), { p.drive port d with draws := p.draws + 1 })

/-- R17, R109: coherence of the ports is an invariant. Every step of the machine keeps it, and at every width
every step and every action of the host, so that a settled `result` is always the contract's function of the pair
then driven. -/
def Obligations.CoherenceIsKept : Prop :=
  (∀ s t : State, s.Coherent → step s = .next t → t.Coherent)
    ∧ ∀ (W : Nat) (p : Ports W), p.Coherent →
        (∀ q, stepAt p = .next q → q.Coherent) ∧ ∀ k act q v, hostAct k act p = .next (q, v) → q.Coherent

/-- R29, R106: the state after reset is coherent, and so are the ports of an instance of any width at power-up.
Their values are the model's choice (notes/assumptions/3.md). -/
def Obligations.ResetIsCoherent : Prop := State.reset.Coherent ∧ ∀ W : Nat, (Ports.powerUp W).Coherent

/-- R38, R96: an action on one of several instances changes no other, does to it what it does to it alone, and
the order of actions on two of them does not matter: what one order answers, the other does, with the same values
read. That an early read among them gives one value in both orders is the model's choice
(notes/assumptions/4.md). -/
def Obligations.InstancesAreIndependent : Prop :=
  (∀ (W k : Nat) (act : HostAction W) (blocks out : List (Ports W)) (v : Option (BitVec W)),
      actInstance k act blocks = .ok (out, v) →
        out.length = blocks.length ∧ (∀ j, j ≠ k → out[j]? = blocks[j]?)
          ∧ ∃ p t, blocks[k]? = some p ∧ hostAct k act p = .next (t, v) ∧ out[k]? = some t)
    ∧ (∀ (W j k : Nat) (act act' : HostAction W) (blocks out : List (Ports W)) (v v' : Option (BitVec W)),
        j ≠ k →
          ((∃ mid, actInstance j act blocks = .ok (mid, v) ∧ actInstance k act' mid = .ok (out, v'))
            ↔ ∃ mid, actInstance k act' blocks = .ok (mid, v') ∧ actInstance j act mid = .ok (out, v)))

/-- R38, R96: evaluations that overlap do not interact. In a run that interleaves actions on any number of
instances in any order, each instance ends with the ports, and is read with the values, that its own actions alone
give it. That the early reads among these values agree too is the model's choice (notes/assumptions/4.md). -/
def Obligations.OverlappingEvaluationsDoNotInteract : Prop :=
  ∀ (W k : Nat) (script : List (Nat × HostAction W)) (blocks out : List (Ports W)) (reads : List (Nat × BitVec W))
    (p : Ports W),
    runInstances script blocks = .ok (out, reads) → blocks[k]? = some p →
      ∃ q, out[k]? = some q ∧ runAlone k (actionsOn k script) p = .next (q, readsOf k reads)

/-! ## The network -/

/-- R8: `n(W)` is the least `n` with `2^n >= W`, with the values of the table. -/
def Obligations.StageCountIsLeast : Prop :=
  (∀ W : Nat, W ≤ 2 ^ stageCount W ∧ ∀ m, W ≤ 2 ^ m → stageCount W ≤ m)
    ∧ (∀ k, span k = 2 ^ k)
    ∧ [8, 16, 32, 64].map (fun W => (List.range (stageCount W)).map span)
        = [[1, 2, 4], [1, 2, 4, 8], [1, 2, 4, 8, 16], [1, 2, 4, 8, 16, 32]]
    ∧ [1, 2, 8, 16, 32, 33, 64].map stageCount = [0, 1, 3, 4, 5, 6, 6]

/-- R72: the injection, bit by bit: the carry out of bit 0 with 1 carried in, the raw generate above it, and
`P_0` unchanged. -/
def Obligations.CarryInjectionBits : Prop :=
  ∀ (W : Nat) (a b : BitVec W),
    (seedLevel a b).g = rawGenerate a (complement b) ||| (propagateSeed a (complement b) &&& one W)
      ∧ (seedLevel a b).p = propagateSeed a (complement b)
      ∧ ∀ i, i < W → (seedLevel a b).g.getLsbD i =
          if i = 0 then a.getLsbD 0 || (complement b).getLsbD 0
          else (rawGenerate a (complement b)).getLsbD i

/-- R74, R75, R76: a prefix stage, bit by bit: both combinations read the old signals, each shifted operand
comes from `2^k` positions below, and the low positions are filled with 0. -/
def Obligations.PrefixStageBits : Prop :=
  ∀ (W k : Nat) (l : GenProp W),
    (prefixStage k l).g = (l.g ||| (l.p &&& (l.g <<< span k)))
      ∧ (prefixStage k l).p = (l.p &&& (l.p <<< span k))
      ∧ ∀ i, i < W →
        (prefixStage k l).g.getLsbD i
            = (l.g.getLsbD i || (l.p.getLsbD i && (decide (2 ^ k ≤ i) && l.g.getLsbD (i - 2 ^ k))))
          ∧ (prefixStage k l).p.getLsbD i
            = (l.p.getLsbD i && (decide (2 ^ k ≤ i) && l.p.getLsbD (i - 2 ^ k)))

/-- R79: the result, bit by bit: bit 0 in its three forms, every bit above it, and that the final carry does
not reach the result: any final generate that agrees below the top bit gives the same one. -/
def Obligations.ResultBits : Prop :=
  ∀ (W : Nat) (a b : BitVec W),
    (1 ≤ W →
      (networkSub a b).getLsbD 0 = !(seedLevel a b).p.getLsbD 0
        ∧ (networkSub a b).getLsbD 0 = !(a.getLsbD 0 ^^ (complement b).getLsbD 0)
        ∧ (networkSub a b).getLsbD 0 = (a.getLsbD 0 ^^ b.getLsbD 0))
      ∧ (∀ i, 1 ≤ i → i < W →
          (networkSub a b).getLsbD i
            = ((seedLevel a b).p.getLsbD i ^^ (prefixLevel a b (stageCount W)).g.getLsbD (i - 1)))
      ∧ ∀ g : BitVec W,
          (∀ i, i + 1 < W → g.getLsbD i = (prefixLevel a b (stageCount W)).g.getLsbD i) →
          finalSum (seedLevel a b).p g = networkSub a b

/-- R81: the meaning of `P_k`. -/
def Obligations.PropagateMeansTheWholeGroup : Prop :=
  ∀ (W : Nat) (a b : BitVec W) (k i : Nat), i < W →
    ((prefixLevel a b k).p.getLsbD i = true ↔
        2 ^ k ≤ i + 1 ∧ ∀ j, i + 1 - 2 ^ k ≤ j → j ≤ i → (seedLevel a b).p.getLsbD j = true)
      ∧ (i + 1 < 2 ^ k → (prefixLevel a b k).p.getLsbD i = false)

/-- R82: the meaning of `G_k`: the group of bits `lo..i` sends a carry out of bit `i`. -/
def Obligations.GenerateMeansAGroupCarry : Prop :=
  ∀ (W : Nat) (a b : BitVec W),
    (∀ j, j < W → bitGenerate a (complement b) j = (seedLevel a b).g.getLsbD j)
      ∧ ∀ k i, i < W →
        ((prefixLevel a b k).g.getLsbD i = true ↔
          ∃ j, i + 1 - 2 ^ k ≤ j ∧ j ≤ i ∧ bitGenerate a (complement b) j = true
            ∧ ∀ m, j < m → m ≤ i → (seedLevel a b).p.getLsbD m = true)

/-- R83: the final carries are the ripple carries of `a + ~b + 1`, tell the comparison of the low parts, and
are the complements of the borrows; the last one tells `uint_W(a) >= uint_W(b)`. -/
def Obligations.FinalCarriesAreRippleCarries : Prop :=
  ∀ (W : Nat) (a b : BitVec W),
    (∀ i, i < W →
      (prefixLevel a b (stageCount W)).g.getLsbD i = rippleCarry a (complement b) (i + 1)
        ∧ ((prefixLevel a b (stageCount W)).g.getLsbD i = true ↔ lowBits b i ≤ lowBits a i)
        ∧ ((prefixLevel a b (stageCount W)).g.getLsbD i = false ↔ borrowOut a b i = true))
      ∧ (1 ≤ W → (finalCarry a b = true ↔ uint b ≤ uint a))

/-- R84: the network meets the contract, at every width. -/
def Obligations.NetworkMeetsTheContract : Prop :=
  ∀ (W : Nat) (a b : BitVec W), networkSub a b = bv W ((uint a : Int) - (uint b : Int))

/-- R80: the straight-line program is the network at `W = 32`, with the signals of the worked example. -/
def Obligations.StraightLineIsTheNetworkAt32 : Prop :=
  (∀ a b : BitVec 32, straightLine32 a b = networkSub a b)
    ∧ complement 0x00000003#32 = 0xFFFFFFFC#32
    ∧ rawGenerate 0x00000005#32 0xFFFFFFFC#32 = 0x00000004#32
    ∧ (seedLevel 0x00000005#32 0x00000003#32).p = 0xFFFFFFF9#32
    ∧ (List.range 6).map (fun k => (prefixLevel 0x00000005#32 0x00000003#32 k).g)
        = [0x00000005#32, 0x0000000D#32, 0x0000003D#32, 0x000003FD#32, 0x0003FFFD#32, 0xFFFFFFFD#32]
    ∧ 0xFFFFFFFD#32 <<< 1 = 0xFFFFFFFA#32
    ∧ straightLine32 0x00000005#32 0x00000003#32 = 0x00000002#32

/-- R77: leaving out the last propagate vector cannot be seen in the result; at `W = 32` it is `P_5`, and the
last stage still reads `P_4`. -/
def Obligations.LastPropagateMayBeOmitted : Prop :=
  (∀ (W : Nat) (a b : BitVec W), networkSubOmittingLast a b = networkSub a b)
    ∧ ∀ a b : BitVec 32,
        networkSubOmittingLast a b
          = finalSum (seedLevel a b).p
              ((prefixLevel a b 4).g ||| ((prefixLevel a b 4).p &&& ((prefixLevel a b 4).g <<< 16)))

/-- R85: `n(W)` stages and any greater number give the right result with the same final generate; the least
number right for all inputs is `ceil(log2(W-1))` for `W >= 3` and 0 below, and equals `n(W)` at the powers of
two from 4; 4 stages at `W = 32` are too few. -/
def Obligations.StageCountsThatSuffice : Prop :=
  (∀ (W m : Nat) (a b : BitVec W), stageCount W ≤ m →
      (prefixLevel a b m).g = (prefixLevel a b (stageCount W)).g ∧ networkSubAfter m a b = subtract a b)
    ∧ (∀ (W m : Nat), W ≤ 2 → ∀ a b : BitVec W, networkSubAfter m a b = subtract a b)
    ∧ (∀ (W m : Nat), 3 ≤ W →
        ((∀ a b : BitVec W, networkSubAfter m a b = subtract a b) ↔ stageCount (W - 1) ≤ m))
    ∧ (∀ (W k i : Nat) (a b : BitVec W), i < W → i < 2 ^ k →
        (prefixLevel a b (k + 1)).g.getLsbD i = (prefixLevel a b k).g.getLsbD i)
    ∧ (∀ j, 2 ≤ j → stageCount (2 ^ j - 1) = stageCount (2 ^ j))
    ∧ networkSubAfter 4 0x00000000#32 0x00000000#32 = 0xFFFE0000#32

/-- R86: the shift amounts stay below `W`, but for the final shift at `W = 1`, which gives 0. -/
def Obligations.ShiftAmountsStayBelowTheWidth : Prop :=
  (∀ W : Nat, 2 ≤ W → 1 ≤ stageCount W ∧ ∀ k, k < stageCount W → span k < W)
    ∧ span (stageCount 32 - 1) = 16 ∧ 16 = 32 / 2
    ∧ stageCount 1 = 0
    ∧ (∀ g : BitVec 1, g <<< 1 = 0)
    ∧ ∀ a b : BitVec 1, networkSub a b = (seedLevel a b).p ^^^ one 1 ∧ networkSub a b = a ^^^ b

/-- R27: the final carry tells the unsigned comparison, and the final shift discards it: two final generates
that agree below the top bit give one sum. -/
def Obligations.FinalCarryIsNotAnOutput : Prop :=
  (∀ (W : Nat) (a b : BitVec W), 1 ≤ W → (finalCarry a b = true ↔ uint b ≤ uint a))
    ∧ ∀ (W : Nat) (p g g' : BitVec W), (∀ i, i + 1 < W → g.getLsbD i = g'.getLsbD i) →
        finalSum p g = finalSum p g'

/-! ## Arithmetic laws of the block -/

/-- R54: the signed reading of the result is that of the operands' difference modulo `2^W`, and lies in the
signed range, which fixes it. -/
def Obligations.SignedReadingOfTheResult : Prop :=
  ∀ (W : Nat) (a b : BitVec W),
    (sint (networkSub a b) - (sint a - sint b)) % 2 ^ W = 0
      ∧ -2 ^ (W - 1) ≤ sint (networkSub a b) ∧ sint (networkSub a b) ≤ 2 ^ (W - 1) - 1

/-- R55: the three cases of the signed difference, the test for overflow by the sign bits, and that overflow is
neither reported nor trapped. -/
def Obligations.SignedOverflowWraps : Prop :=
  (∀ (W : Nat) (a b : BitVec W),
      -(2 ^ W - 1) ≤ sint a - sint b ∧ sint a - sint b ≤ 2 ^ W - 1
        ∧ sint (networkSub a b) =
            (if sint a - sint b > 2 ^ (W - 1) - 1 then sint a - sint b - 2 ^ W
             else if sint a - sint b < -2 ^ (W - 1) then sint a - sint b + 2 ^ W
             else sint a - sint b)
        ∧ (signedOverflow a b (networkSub a b) = true ↔
            sint a - sint b > 2 ^ (W - 1) - 1 ∨ sint a - sint b < -2 ^ (W - 1))
        ∧ ∀ p : Ports W, execAt (.sub a b) p = .next
            { a := .driven a, b := .driven b, result := .settled (networkSub a b), draws := p.draws })
    ∧ ∀ (a b : Word) (s : State), exec (.sub a b) s = .next
        { a := .driven a, b := .driven b, result := .settled (networkSub a b), draws := s.draws }

/-- R56: the unsigned reading of the result, its two cases, and the internal carry that tells them apart. -/
def Obligations.UnsignedReadingOfTheResult : Prop :=
  ∀ (W : Nat) (a b : BitVec W),
    (uint (networkSub a b) : Int) = ((uint a : Int) - (uint b : Int)) % 2 ^ W
      ∧ (uint (networkSub a b) : Int)
          = (if unsignedWrap a b then (uint a : Int) - uint b + 2 ^ W else (uint a : Int) - uint b)
      ∧ (1 ≤ W → finalCarry a b = !unsignedWrap a b)

/-- R57: `SUB a, 0 = a`. -/
def Obligations.SubZeroIsIdentity : Prop := ∀ (W : Nat) (a : BitVec W), networkSub a 0 = a

/-- R58: `SUB a, a = 0`, and it is the longest carry chain: every propagate bit is 1 and the carry of the
injected `ONE` runs through every position. -/
def Obligations.SubSelfIsZero : Prop :=
  ∀ (W : Nat) (a : BitVec W), networkSub a a = 0 ∧ (seedLevel a a).p = all1 W
    ∧ (∀ i, i < W → (seedLevel a a).g.getLsbD i = decide (i = 0))
    ∧ (prefixLevel a a (stageCount W)).g = all1 W

/-- R59: `SUB INT_MIN, 1 = INT_MAX`, at every width and on the machine. -/
def Obligations.IntMinLessOneIsIntMax : Prop :=
  (∀ W : Nat, networkSub (intMin W) (one W) = intMax W)
    ∧ ∀ s : State, ∃ t, exec (.sub 0x80000000 0x00000001) s = .next t ∧ t.settledTo 0x7FFFFFFF

/-- R60: `SUB 0, b` is the negation of `b`, in both of its forms, and `INT_MIN` negates to itself. -/
def Obligations.SubFromZeroNegates : Prop :=
  ∀ (W : Nat) (b : BitVec W),
    networkSub 0 b = bv W (-(uint b : Int)) ∧ networkSub 0 b = complement b + one W
      ∧ networkSub 0 (intMin W) = intMin W

/-- R62: the operands' roles: exchanging them negates the result, it is not commutative (from `W = 2` on: at
`W = 1` the two orders agree), and changing any one bit of either operand changes the result. -/
def Obligations.OperandRolesMatter : Prop :=
  (∀ (W : Nat) (a b : BitVec W), networkSub b a = networkSub 0 (networkSub a b))
    ∧ (∀ W : Nat, 2 ≤ W → ∃ a b : BitVec W, networkSub a b ≠ networkSub b a)
    ∧ ∀ (W : Nat) (a b : BitVec W) (i : Nat), i < W →
        networkSub (a ^^^ BitVec.twoPow W i) b ≠ networkSub a b
          ∧ networkSub a (b ^^^ BitVec.twoPow W i) ≠ networkSub a b

/-! ## The host -/

/-- R52: a SUB step of a host program, at every width and from every host state in which its operands have values: it evaluates
the pair on the block, holds the difference as `hK`, keeps every other value, and goes on with the next
line. -/
def Obligations.HostSubStepHoldsTheDifference : Prop :=
  ∀ (W : Nat) (prog : List (HostStep W)) (h : HostState W) (n k : Nat) (x y : HostOperand W) (u v : BitVec W),
    h.halted = false → h.line = n + 1 → prog[n]? = some (.sub k x y) →
    operandValue h.held x = .ok u → operandValue h.held y = .ok v →
    ∃ t, hostStep prog h = .ok t ∧ t.line = h.line + 1 ∧ t.halted = false
      ∧ heldValue k t.held = some (subtract u v)
      ∧ (∀ j, j ≠ k → heldValue j t.held = heldValue j h.held)
      ∧ t.block.holdsPair u v ∧ t.block.settledTo (subtract u v) ∧ t.block.draws = h.block.draws

/-- R52: `hK <- NEG y` is `hK <- SUB 0, y`, in every host state. -/
def Obligations.HostNegIsSubFromZero : Prop :=
  ∀ (W k : Nat) (y : HostOperand W) (h : HostState W),
    runHostStep (.neg k y) h = runHostStep (.sub k (.lit 0) y) h

/-- R52, R65: host control flow never reaches the block and changes no held value; it chooses the next line, or
ends the program. -/
def Obligations.HostControlFlowLeavesTheBlock : Prop :=
  ∀ (W : Nat) (h : HostState W) (k line : Nat) (v : HostOperand W),
    runHostStep (.goto line) h = .ok { h with line := line }
      ∧ runHostStep .halt h = .ok { h with halted := true }
      ∧ ∀ u w, heldValue k h.held = some u → operandValue h.held v = .ok w →
          runHostStep (.ifEq k v line) h
            = .ok { h with line := if u = w then line else h.line + 1 }

/-- R103, R105: whatever the block, and whatever the verdicts, a run of the harness prints one line for each of
its 32 pairs, in order, and exits with status 0. -/
def Obligations.HarnessNeverStopsOnAFail : Prop :=
  ∀ (block : Word → Word → Word) (pairs : Vector (Word × Word) trialCount),
    (harnessRun block pairs).exitStatus = 0
      ∧ (harnessRun block pairs).lines.length = 32
      ∧ ∀ i (hi : i < trialCount), (harnessRun block pairs).lines[i]? = some (trialOf block pairs[i]).line

/-- R84, R103, R104: on this block every trial of the harness passes, and on any function a trial passes exactly
when its result is the difference. -/
def Obligations.HarnessPassesOnTheBlock : Prop :=
  (∀ a b : Word, (trialOf networkSub (a, b)).passes = true)
    ∧ ∀ (block : Word → Word → Word) (a b : Word),
        (trialOf block (a, b)).passes = true ↔ block a b = subtract a b
end

