-- ==== Sys2Proof/Laws/HostProgram.lean ====
section
/-! SUPPORT. What a host holds. -/

namespace Sys2Proof.Machine

variable {W : Nat}

/-- The value just held is the value read. -/
@[simp] theorem heldValue_holdValue_self (k : Nat) (v : BitVec W) (held : List (Nat × BitVec W)) :
    heldValue k (holdValue k v held) = some v := by
  induction held with
  | nil => simp [holdValue, heldValue]
  | cons p rest ih =>
    obtain ⟨j, w⟩ := p
    simp only [holdValue]
    split
    · simp [heldValue]
    · split
      · simp [heldValue]
      · rename_i h
        simp [heldValue, h, ih]

/-- Holding a value leaves every other held value alone. -/
theorem heldValue_holdValue_of_ne {j k : Nat} (h : j ≠ k) (v : BitVec W) (held : List (Nat × BitVec W)) :
    heldValue j (holdValue k v held) = heldValue j held := by
  induction held with
  | nil => simp [holdValue, heldValue, h]
  | cons p rest ih =>
    obtain ⟨i, w⟩ := p
    simp only [holdValue]
    split
    · simp [heldValue, h]
    · split
      · rename_i hk
        subst hk
        simp [heldValue, h]
      · simp [heldValue, ih]

/-- Where the wait is not refused, an evaluation gives what is read of the block after it. -/
theorem hostEvaluate_of_stepAt {x y : BitVec W} {block t : Ports W} (h : stepAt (block.drivePair x y) = .next t) :
    hostEvaluate x y block = .ok (t.readResult 0) := by
  simp [hostEvaluate, h]

end Sys2Proof.Machine
end

