-- ==== Sys2Proof/Laws/Network.lean ====
section
/-! SUPPORT. The definitions of the network, unfolded once. -/

namespace Sys2Proof.Machine

@[simp] theorem prefixLevel_zero {W : Nat} (a b : BitVec W) : prefixLevel a b 0 = seedLevel a b := rfl

@[simp] theorem prefixLevel_succ {W : Nat} (a b : BitVec W) (k : Nat) :
    prefixLevel a b (k + 1) = prefixStage k (prefixLevel a b k) := rfl

@[simp] theorem seedLevel_p {W : Nat} (a b : BitVec W) : (seedLevel a b).p = a ^^^ ~~~b := rfl

theorem seedLevel_g {W : Nat} (a b : BitVec W) :
    (seedLevel a b).g = (a &&& ~~~b) ||| ((a ^^^ ~~~b) &&& one W) := rfl

@[simp] theorem prefixStage_g {W : Nat} (k : Nat) (l : GenProp W) : (prefixStage k l).g = combineGenerate k l := rfl

@[simp] theorem prefixStage_p {W : Nat} (k : Nat) (l : GenProp W) : (prefixStage k l).p = combinePropagate k l := rfl

theorem networkSub_eq {W : Nat} (a b : BitVec W) :
    networkSub a b = finalSum (seedLevel a b).p (prefixLevel a b (stageCount W)).g := rfl

@[simp] theorem rippleCarry_zero {W : Nat} (a nb : BitVec W) : rippleCarry a nb 0 = true := rfl

theorem rippleCarry_succ {W : Nat} (a nb : BitVec W) (i : Nat) :
    rippleCarry a nb (i + 1)
      = ((a.getLsbD i && nb.getLsbD i) || (a.getLsbD i && rippleCarry a nb i) || (nb.getLsbD i && rippleCarry a nb i)) :=
  rfl

/-- `ONE` has only bit 0 set. -/
theorem one_getLsbD (W i : Nat) : (one W).getLsbD i = (decide (i < W) && decide (i = 0)) := by
  simp [one, BitVec.getLsbD_one, Bool.and_comm]
  by_cases h : i = 0 <;> by_cases h' : i < W <;> simp [h, h']

/-- The contract of R53 is Lean's own subtraction of bit-vectors. -/
theorem subtract_eq_sub {W : Nat} (a b : BitVec W) : subtract a b = a - b := by
  simp only [subtract, bv, uint]
  rw [Int.sub_eq_add_neg, BitVec.ofInt_add, BitVec.ofInt_neg, BitVec.ofInt_natCast, BitVec.ofInt_natCast,
    BitVec.ofNat_toNat, BitVec.ofNat_toNat, BitVec.setWidth_eq, BitVec.setWidth_eq, BitVec.sub_eq_add_neg]

end Sys2Proof.Machine
end

