-- ==== Sys2Proof/Laws/State.lean ====
section
/-! SUPPORT. One lemma per field per update of the ports, and what each operation of the machine does to its
ports. -/

namespace Sys2Proof.Machine

@[simp] theorem Ports.drive_a_a {W : Nat} (p : Ports W) (d : Drive W) : (p.drive .a d).a = d := rfl
@[simp] theorem Ports.drive_a_b {W : Nat} (p : Ports W) (d : Drive W) : (p.drive .a d).b = p.b := rfl
@[simp] theorem Ports.drive_b_a {W : Nat} (p : Ports W) (d : Drive W) : (p.drive .b d).a = p.a := rfl
@[simp] theorem Ports.drive_b_b {W : Nat} (p : Ports W) (d : Drive W) : (p.drive .b d).b = d := rfl

@[simp] theorem Ports.drive_result {W : Nat} (p : Ports W) (port : InPort) (d : Drive W) :
    (p.drive port d).result = .settling := by
  cases port <;> rfl

@[simp] theorem Ports.drive_draws {W : Nat} (p : Ports W) (port : InPort) (d : Drive W) :
    (p.drive port d).draws = p.draws := by
  cases port <;> rfl

@[simp] theorem Ports.drivePair_a {W : Nat} (p : Ports W) (x y : BitVec W) : (p.drivePair x y).a = .driven x := rfl
@[simp] theorem Ports.drivePair_b {W : Nat} (p : Ports W) (x y : BitVec W) : (p.drivePair x y).b = .driven y := rfl
@[simp] theorem Ports.drivePair_result {W : Nat} (p : Ports W) (x y : BitVec W) :
    (p.drivePair x y).result = .settling := rfl
@[simp] theorem Ports.drivePair_draws {W : Nat} (p : Ports W) (x y : BitVec W) :
    (p.drivePair x y).draws = p.draws := rfl

@[simp] theorem Ports.evaluate_a {W : Nat} (p : Ports W) (x y : BitVec W) : (p.evaluate x y).a = .driven x := rfl
@[simp] theorem Ports.evaluate_b {W : Nat} (p : Ports W) (x y : BitVec W) : (p.evaluate x y).b = .driven y := rfl
@[simp] theorem Ports.evaluate_result {W : Nat} (p : Ports W) (x y : BitVec W) :
    (p.evaluate x y).result = .settled (networkSub x y) := rfl
@[simp] theorem Ports.evaluate_draws {W : Nat} (p : Ports W) (x y : BitVec W) :
    (p.evaluate x y).draws = p.draws := rfl

/-- An evaluation looks at no field but the counter, which it keeps. -/
@[simp] theorem Ports.evaluate_evaluate {W : Nat} (p : Ports W) (x y u v : BitVec W) :
    (p.evaluate x y).evaluate u v = p.evaluate u v := rfl

@[simp] theorem Ports.evaluate_drivePair {W : Nat} (p : Ports W) (x y u v : BitVec W) :
    (p.drivePair x y).evaluate u v = p.evaluate u v := rfl

@[simp] theorem State.drive_toPorts (s : State) (port : InPort) (d : Drive Config.width) :
    (s.drive port d).toPorts = s.toPorts.drive port d := rfl
@[simp] theorem State.drivePair_toPorts (s : State) (x y : Word) :
    (s.drivePair x y).toPorts = s.toPorts.drivePair x y := rfl
@[simp] theorem State.evaluate_toPorts (s : State) (x y : Word) :
    (s.evaluate x y).toPorts = s.toPorts.evaluate x y := rfl
@[simp] theorem State.presentWord_toPorts (s : State) (nbits w : Nat) :
    (s.presentWord nbits w).toPorts = s.toPorts.presentWord nbits w := rfl
@[simp] theorem State.reset_toPorts : State.reset.toPorts = Ports.powerUp Config.width := rfl

/-- A state is its ports. -/
theorem State.ext_ports {s t : State} (h : s.toPorts = t.toPorts) : s = t := by
  cases s
  cases t
  cases h
  rfl

end Sys2Proof.Machine
end

