-- ==== Sys2Proof/Laws/Ops.lean ====
section
/-! SUPPORT. Each shared operation over the ports, said once. -/

namespace Sys2Proof.Machine

variable {W : Nat}

@[simp] theorem portValue_driven (port : InPort) (v : BitVec W) : portValue port (.driven v) = .ok v := rfl
@[simp] theorem portValue_undriven (port : InPort) :
    portValue port (.undriven : Drive W) = .error (.undrivenInput port) := rfl
@[simp] theorem portValue_looped (port : InPort) :
    portValue port (.looped : Drive W) = .error (.combinationalFeedback port) := rfl

/-- The ports present the word of the pair they hold. -/
theorem Ports.presented_of_holdsPair {p : Ports W} {x y : BitVec W} (h : p.holdsPair x y) :
    p.presented = .ok (packOperands x y) := by
  simp [Ports.presented, h.1, h.2]

/-- A word is presented only by a pair that the ports hold, and it is that pair's word. -/
theorem Ports.presented_ok_cases {p : Ports W} {op : BitVec (2 * W)} (h : p.presented = .ok op) :
    ∃ x y, p.holdsPair x y ∧ op = packOperands x y := by
  obtain ⟨a, b, r, d⟩ := p
  cases a <;> cases b <;> simp_all [Ports.presented, Ports.holdsPair]

/-- No word is presented exactly when a duty is broken at a port, and that is the reason given. -/
theorem Ports.presented_error_iff (p : Ports W) (r : Refusal) :
    p.presented = .error r ↔ p.dutyBroken = some r := by
  obtain ⟨a, b, o, d⟩ := p
  cases a <;> cases b <;> simp [Ports.presented, Ports.dutyBroken]

/-- Everything a read can do. -/
theorem Ports.readResult_cases (p : Ports W) (k : Nat) :
    (∃ v, p.result = .settled v ∧ p.readResult k = (v, p))
      ∨ (p.result = .settling
          ∧ p.readResult k = (Config.unsettledResult W k p, { p with draws := p.draws + 1 })) := by
  obtain ⟨a, b, o, d⟩ := p
  cases o with
  | settled v => exact .inl ⟨v, rfl, rfl⟩
  | settling => exact .inr ⟨rfl, rfl⟩

@[simp] theorem execAt_sub (a b : BitVec W) (p : Ports W) : execAt (.sub a b) p = .next (p.evaluate a b) := rfl

@[simp] theorem exec_sub (a b : Word) (s : State) : exec (.sub a b) s = .next (s.evaluate a b) := rfl

/-- Everything `exec` can do. -/
theorem exec_next_cases {i : Instr} {s t : State} (h : exec i s = .next t) :
    ∃ a b, i = .sub a b ∧ t = s.evaluate a b := by
  cases i with
  | sub a b => exact ⟨a, b, rfl, by simpa using h.symm⟩

/-- Where the step of a block answers a next state, the ports presented a word and its instruction was run. -/
theorem stepAt_next_cases {p t : Ports W} (h : stepAt p = .next t) :
    ∃ op, p.presented = .ok op ∧ execAt (decodeAt op) p = .next t := by
  unfold stepAt at h
  split at h
  · exact ⟨_, ‹_›, h⟩
  · cases h

/-- Where the step answers a next state, the ports presented a word and the step ran its instruction. -/
theorem step_next_cases {s t : State} (h : step s = .next t) :
    ∃ op, s.presented = .ok op ∧ exec (decode op) s = .next t := by
  unfold step at h
  split at h
  · exact ⟨_, ‹_›, h⟩
  · cases h

/-- The step of a block is refused for the reason for which no word is presented. -/
theorem stepAt_of_presented_error {p : Ports W} {r : Refusal} (h : p.presented = .error r) :
    stepAt p = .refused r := by
  simp [stepAt, h]

/-- The step is refused for the reason for which no word is presented. -/
theorem step_of_presented_error {s : State} {r : Refusal} (h : s.presented = .error r) :
    step s = .refused r := by
  simp [step, h]

/-- Everything an action of the host can do. -/
theorem hostAct_next_cases {k : Nat} {act : HostAction W} {p t : Ports W} {v : Option (BitVec W)}
    (h : hostAct k act p = .next (t, v)) :
    (∃ port d, act = .drive port d ∧ t = p.drive port d ∧ v = none)
      ∨ (∃ x y, act = .drivePair x y ∧ t = p.drivePair x y ∧ v = none)
      ∨ (act = .awaitSettled ∧ stepAt p = .next t ∧ v = none)
      ∨ (act = .readResult ∧ t = (p.readResult k).2 ∧ v = some (p.readResult k).1) := by
  cases act with
  | drive port d =>
    cases h
    exact .inl ⟨port, d, rfl, rfl, rfl⟩
  | drivePair x y =>
    cases h
    exact .inr (.inl ⟨x, y, rfl, rfl, rfl⟩)
  | awaitSettled =>
    simp only [hostAct] at h
    split at h
    · rename_i u hu
      cases h
      exact .inr (.inr (.inl ⟨rfl, hu, rfl⟩))
    · cases h
    · cases h
  | readResult =>
    cases h
    exact .inr (.inr (.inr ⟨rfl, rfl, rfl⟩))

/-- Where the host acts on an instance, it is there, it does what the action does to it alone, and only its
place in the list changes. -/
theorem actInstance_ok_cases {k : Nat} {act : HostAction W} {blocks out : List (Ports W)} {v : Option (BitVec W)}
    (h : actInstance k act blocks = .ok (out, v)) :
    ∃ p t, blocks[k]? = some p ∧ hostAct k act p = .next (t, v) ∧ out = blocks.set k t := by
  unfold actInstance at h
  split at h
  · cases h
  · rename_i p hp
    split at h
    · rename_i t w ht
      cases h
      exact ⟨p, t, hp, ht, rfl⟩
    · cases h

/-- What an action does to an instance alone, it does to it in its place. -/
theorem actInstance_of_hostAct {k : Nat} {act : HostAction W} {blocks : List (Ports W)} {p t : Ports W}
    {v : Option (BitVec W)} (hp : blocks[k]? = some p) (h : hostAct k act p = .next (t, v)) :
    actInstance k act blocks = .ok (blocks.set k t, v) := by
  simp [actInstance, hp, h]

end Sys2Proof.Machine
end

