-- ==== Sys2Proof/Laws/PerInstr.lean ====
section
/-! SUPPORT. The families of statements made per instruction. -/

namespace Sys2Proof.Laws

/-- R47: every instruction, whatever its operands, is well formed. -/
def OperandsAdmitted.Statement (i : Instr) : Prop := i.wellFormed = true

theorem OperandsAdmitted.sub (a b : Word) : OperandsAdmitted.Statement (.sub a b) := rfl

end Sys2Proof.Laws
end

