-- ==== Sys2Proof/Tests/Slice0.lean ====
section
/-! SUPPORT. Tests, with expected values from spec/95_test_vectors.md, and for each obligation with hypotheses a
witness that meets them. -/

namespace Sys2Proof.Tests

open Sys2Proof.Machine

/-- The ports with a pair applied and not yet settled. -/
def applied (x y : Word) : State := { a := .driven x, b := .driven y, result := .settling, draws := 0 }

/-- The same on a block of any width. -/
def appliedAt {W : Nat} (x y : BitVec W) : Ports W :=
  { a := .driven x, b := .driven y, result := .settling, draws := 0 }

/-- What `result` shows after a step or an instruction that answers a next state. -/
def shown : Host.Outcome State Fault Refusal → Option (Output Config.width)
  | .next t => some t.result
  | .fault _ => none
  | .refused _ => none

/-- Why a step is refused, if it is. -/
def refusal : Host.Outcome State Fault Refusal → Option Refusal
  | .next _ => none
  | .fault _ => none
  | .refused r => some r

/-! ## Well-formedness: each check refuses an ill-formed term -/

theorem test_narrow_word_refused : opWidthOk 32 63 = false := by decide
theorem test_wide_word_refused : opWidthOk 32 65 = false := by decide
theorem test_hex_literal_of_33_bits_refused : (Literal.hex 0x100000000).wellFormed 32 = false := by decide
theorem test_line_with_wide_literal_refused : (AsmLine.sub (.hex 0) (.hex 0x100000000)).wellFormed 32 = false := by decide
theorem test_neg_of_wide_literal_refused : (AsmLine.neg (.hex 0x100000000)).wellFormed 32 = false := by decide

/-! ## The operation word (V1, V22) -/

/-- V22, bit by bit from R43: the 32 bits of `a`, then the 32 bits of `b`. -/
theorem test_decode_sub_from_bits :
    decode 0b1101111010101101101111101110111111001010111111101011101010111110#64
      = .sub 0xDEADBEEF 0xCAFEBABE := by decide

theorem test_encode_sub : encode (.sub 0x00000005 0x00000003) = 0x0000000500000003#64 := by decide
theorem test_decode_refuses_32_bits : decodeBitsAt 32 32 0x00000005#32 = .error (.wrongWidth 32) := by decide
/-- R43, R46 at `W = 8`, from V44: the byte of `a`, then the byte of `b`. -/
theorem test_decode_sub_at_8 : decodeBitsAt 8 16 0b1010010101011010#16 = .ok (.sub 0xA5#8 0x5A#8) := by decide

theorem test_table_word_of_another_width : decodeTableWord 32 5 = none := by decide

/-- R51, P4: `NEG 0x12345678` is `SUB 0, 0x12345678`. -/
theorem test_assemble_neg : assemble 32 (.neg (.hex 0x12345678)) = some (.sub 0x00000000#32 0x12345678#32) := by decide

/-- E2, E3: `-1` is the pattern `0xFFFFFFFF`. -/
theorem test_assemble_minus_one :
    assemble 32 (.sub (.hex 0x7FFFFFFF) (.dec (-1))) = some (.sub 0x7FFFFFFF#32 0xFFFFFFFF#32) := by
  decide

/-! ## `SUB` on the ports -/

/-- E5, V5: `INT_MIN - 1` wraps to `INT_MAX`, and nothing traps. -/
theorem test_sub_wraps_at_int_min :
    shown (exec (.sub 0x80000000 0x00000001) State.reset) = some (.settled 0x7FFFFFFF) := by decide

/-- V22, through the ports: the word is presented to the block after reset and evaluated. -/
theorem test_step_runs_the_presented_word :
    shown (step (State.reset.withFetchWord 64 0xDEADBEEFCAFEBABE)) = some (.settled 0x13AF0431) := by decide

theorem test_undriven_input_refused :
    refusal (step ((applied 5 3).drive .b .undriven)) = some (.undrivenInput .b) := by decide

theorem test_feedback_refused :
    refusal (step ((applied 5 3).drive .a .looped)) = some (.combinationalFeedback .a) := by decide

theorem test_word_of_another_width_drives_nothing :
    refusal (step (State.reset.withFetchWord 32 5)) = some (.undrivenInput .a) := by decide

theorem test_early_read_is_the_free_value :
    (appliedAt 5#32 3#32).readResult 7
      = (Config.unsettledResult 32 7 (appliedAt 5#32 3#32), { appliedAt 5#32 3#32 with draws := 1 }) := rfl

/-- V40, V52, V55: the step on the ports of instances of 8, 33 and 64 bits. -/
theorem test_step_at_other_widths :
    stepAt (appliedAt 0x80#8 0x01#8) = .next { appliedAt 0x80#8 0x01#8 with result := .settled 0x7F#8 }
      ∧ stepAt (appliedAt 0x100000000#33 0x000000001#33)
          = .next { appliedAt 0x100000000#33 0x000000001#33 with result := .settled 0x0FFFFFFFF#33 }
      ∧ stepAt (appliedAt 0x0000000000000000#64 0x0000000000000001#64)
          = .next { appliedAt 0x0000000000000000#64 0x0000000000000001#64 with
                    result := .settled 0xFFFFFFFFFFFFFFFF#64 } :=
  ⟨rfl, rfl, rfl⟩

/-! ## The network -/

/-- V1 to V25: pairs and results at `W = 32`. -/
theorem test_vectors_at_32 :
    [(0x00000005, 0x00000003, 0x00000002), (0x00000000, 0x00000001, 0xFFFFFFFF), (0x7FFFFFFF, 0xFFFFFFFF, 0x80000000),
      (0xFFFFFFFF, 0xFFFFFFFF, 0x00000000), (0x80000000, 0x00000001, 0x7FFFFFFF), (0x00000000, 0x00000000, 0x00000000),
      (0x00000000, 0x80000000, 0x80000000), (0x12345678, 0x00000000, 0x12345678), (0x12345678, 0x12345678, 0x00000000),
      (0x00000000, 0x12345678, 0xEDCBA988), (0x80000000, 0x7FFFFFFF, 0x00000001), (0x7FFFFFFF, 0x80000000, 0xFFFFFFFF),
      (0xAAAAAAAA, 0x55555555, 0x55555555), (0x55555555, 0xAAAAAAAA, 0xAAAAAAAB), (0x00000001, 0x00000002, 0xFFFFFFFF),
      (0x00010000, 0x00000001, 0x0000FFFF), (0x00000100, 0x00000001, 0x000000FF), (0x80000000, 0x00000000, 0x80000000),
      (0x00000000, 0xFFFFFFFF, 0x00000001), (0xFFFFFFFF, 0x00000000, 0xFFFFFFFF), (0xFFFFFFFF, 0x80000000, 0x7FFFFFFF),
      (0xDEADBEEF, 0xCAFEBABE, 0x13AF0431), (0x00000001, 0x80000000, 0x80000001), (0x80000000, 0x80000000, 0x00000000),
      (0x00000100, 0x00000100, (0x00000000 : BitVec 32))].all
        (fun (a, b, r) => networkSub a b == r && straightLine32 a b == r && subtract a b == r) = true := by decide

/-- V26 to V29, V35, V44, V48, V53, V57: other widths, `W = 1` and `W = 33` among them. -/
theorem test_vectors_at_other_widths :
    networkSub 0#1 0#1 = 0#1 ∧ networkSub 0#1 1#1 = 1#1 ∧ networkSub 1#1 0#1 = 1#1 ∧ networkSub 1#1 1#1 = 0#1
      ∧ networkSub 0x4#3 0x5#3 = 0x7#3 ∧ networkSub 0xA5#8 0x5A#8 = 0x4B#8
      ∧ networkSub 0x1234#16 0x4321#16 = 0xCF13#16
      ∧ networkSub 0x0FFFFFFFF#33 0x1FFFFFFFF#33 = 0x100000000#33
      ∧ networkSub 0x0123456789ABCDEF#64 0xFEDCBA9876543210#64 = 0x02468ACF13579BDF#64 := by decide

/-- The final carries of V1, V2, V39, V51 and V55. -/
theorem test_final_carries :
    finalCarry 0x00000005#32 0x00000003#32 = true ∧ finalCarry 0x00000000#32 0x00000001#32 = false
      ∧ finalCarry 0x00#8 0x01#8 = false ∧ finalCarry 0x000000000#33 0x000000001#33 = false
      ∧ finalCarry 0x0000000000000000#64 0x0000000000000001#64 = false := by decide

/-- Section 3, trace T4: every `G_k`. -/
theorem test_trace_generate :
    (List.range 6).map (fun k => (prefixLevel 0x7FFFFFFF#32 0xFFFFFFFF#32 k).g)
      = [0x00000001#32, 0x00000003#32, 0x0000000F#32, 0x000000FF#32, 0x0000FFFF#32, 0x7FFFFFFF#32] := by decide

/-- Section 3, trace T4: every `P_k`. -/
theorem test_trace_propagate :
    (List.range 6).map (fun k => (prefixLevel 0x7FFFFFFF#32 0xFFFFFFFF#32 k).p)
      = [0x7FFFFFFF#32, 0x7FFFFFFE#32, 0x7FFFFFF8#32, 0x7FFFFF80#32, 0x7FFF8000#32, 0x00000000#32] := by decide

/-- V58, V59: what the network would give with one stage too few. -/
theorem test_four_stages_are_too_few :
    networkSubAfter 4 0x00000005#32 0x00000003#32 = 0xFFF80002#32
      ∧ networkSubAfter 4 0x00000000#32 0x00000000#32 = 0xFFFE0000#32 := by decide

/-- The table of section 2.1: `n(W)` for `W` from 1 to 12, then 16, 32, 33 and 64. -/
theorem test_stage_counts :
    [1, 2, 3, 4, 5, 6, 7, 8, 9, 10, 11, 12, 16, 32, 33, 64].map stageCount
      = [0, 1, 2, 2, 3, 3, 3, 3, 4, 4, 4, 4, 4, 5, 6, 6] := by decide

/-- The overflow column of V1, V3, V5, V7 and V21. -/
theorem test_overflow_column :
    signedOverflow 0x00000005#32 0x00000003#32 0x00000002#32 = false
      ∧ signedOverflow 0x7FFFFFFF#32 0xFFFFFFFF#32 0x80000000#32 = true
      ∧ signedOverflow 0x80000000#32 0x00000001#32 0x7FFFFFFF#32 = true
      ∧ signedOverflow 0x00000000#32 0x80000000#32 0x80000000#32 = true
      ∧ signedOverflow 0xFFFFFFFF#32 0x80000000#32 0x7FFFFFFF#32 = false := by decide

/-! ## The host -/

/-- P1, its last step: the host feeds a held result back as an operand. -/
theorem test_host_sub_step :
    (hostStep [.sub 0 (.lit 100) (.lit 30), .sub 1 (.held 0) (.lit 50), .sub 2 (.held 1) (.lit 25), .halt]
        { line := 3, held := [(0, 0x46), (1, 0x14)], halted := false, block := Ports.powerUp 32 }).toOption.map HostState.held
      = some [(0, 0x46), (1, 0x14), (2, 0xFFFFFFFB)] := by decide

/-- P4, its first step: a NEG step. -/
theorem test_host_neg_step :
    (hostStep [.neg 1 (.held 0), .neg 2 (.held 1), .halt] (hostStart [(0, 0x12345678#32)])).toOption.map HostState.held
      = some [(0, 0x12345678), (1, 0xEDCBA988)] := by decide

/-- P3, its test, taken and not taken. -/
theorem test_host_branch :
    (runHostStep (.ifEq 0 (.lit 0) 4) { hostStart [(0, 0#32)] with line := 2 }).toOption.map HostState.line = some 4
      ∧ (runHostStep (.ifEq 0 (.lit 0) 4) { hostStart [(0, 2#32)] with line := 2 }).toOption.map HostState.line = some 3 := by
  decide

theorem test_host_value_not_held :
    hostStep [.neg 1 (.held 0)] (hostStart (W := 32) []) = .error (.notHeld 0) := rfl

/-- Section 2.5, its second line. -/
theorem test_harness_line :
    (trialOf networkSub (0x7FFFFFFF, 0xFFFFFFFF)).line
      = "a: 0x7fffffff, b: 0xffffffff, result: 0x80000000, expected: 0x80000000, PASS".toList := by decide

/-- R104: a block that broke the contract would be shown to fail. -/
theorem test_harness_line_of_a_failure :
    (trialOf (fun a _ => a) (5, 3)).line
      = "a: 0x00000005, b: 0x00000003, result: 0x00000005, expected: 0x00000002, FAIL".toList := by decide

/-- R50: the worked line of the notation. -/
theorem test_notation_line : evaluationLine 0x00000005#32 0x00000003#32 0x00000002#32
    = "SUB 0x00000005, 0x00000003 -> 0x00000002".toList := by decide

/-! ## Witnesses: states and operands that meet the hypotheses of the obligations -/

theorem witness_OperandsTakenWholeFromTheirFields : 0 < 32 ∧ 31 < 32 := by decide

theorem witness_OnlyWordsOfTwiceTheWidthDecode : 64 = 2 * 32 ∧ 63 ≠ 2 * 32 ∧ 65 ≠ 2 * 32 := by decide

theorem witness_NegExpandsToSubFromZero :
    (Literal.hex 0xFFFFFFFF).wellFormed 32 = true ∧ (Literal.dec (-1)).wellFormed 32 = true := by decide

theorem witness_StepRunsThePresentedInstruction :
    (applied 5 3).presented = .ok 0x0000000500000003#64 ∧ (applied 5 3).holdsPair 5 3
      ∧ (appliedAt 5#8 3#8).presented = .ok 0x0503#16 ∧ (appliedAt 5#8 3#8).holdsPair 5 3 :=
  ⟨rfl, ⟨rfl, rfl⟩, rfl, rfl, rfl⟩

theorem witness_SubCompletesWithTheDifference : uint 0#32 < uint 1#32 := by decide

theorem witness_UndrivenInputIsRefused_a : ((applied 5 3).drive .a .undriven).a = .undriven := rfl
theorem witness_UndrivenInputIsRefused_b : ((applied 5 3).drive .b .undriven).b = .undriven := rfl
theorem witness_UndrivenInputIsRefused_at_8 : ((appliedAt 5#8 3#8).drive .b .undriven).b = .undriven := rfl

/-- A state for each case: each duty broken at each port, and none. -/
theorem witness_StepRefusesExactlyBrokenDuties :
    ((applied 5 3).drive .a .undriven).dutyBroken = some (.undrivenInput .a)
      ∧ ((applied 5 3).drive .a .looped).dutyBroken = some (.combinationalFeedback .a)
      ∧ ((applied 5 3).drive .b .undriven).dutyBroken = some (.undrivenInput .b)
      ∧ ((applied 5 3).drive .b .looped).dutyBroken = some (.combinationalFeedback .b)
      ∧ (applied 5 3).dutyBroken = none := by decide

theorem witness_ResultDependsOnThePairAlone :
    (applied 5 3).holdsPair 5 3 ∧ ({ applied 5 3 with result := .settled 7, draws := 9 } : State).holdsPair 5 3
      ∧ (appliedAt 5#8 3#8).holdsPair 5 3
      ∧ ({ appliedAt 5#8 3#8 with result := .settled 7, draws := 9 } : Ports 8).holdsPair 5 3 :=
  ⟨⟨rfl, rfl⟩, ⟨rfl, rfl⟩, ⟨rfl, rfl⟩, rfl, rfl⟩

theorem witness_RepeatedEvaluationChangesNothing :
    step (applied 5 3) = .next { applied 5 3 with result := .settled 2 }
      ∧ stepAt (appliedAt 5#8 3#8) = .next { appliedAt 5#8 3#8 with result := .settled 2 } :=
  ⟨rfl, rfl⟩

theorem witness_CoherenceIsKept_step :
    (applied 5 3).Coherent ∧ step (applied 5 3) = .next { applied 5 3 with result := .settled 2 }
      ∧ (appliedAt 5#8 3#8).Coherent ∧ stepAt (appliedAt 5#8 3#8) = .next { appliedAt 5#8 3#8 with result := .settled 2 } :=
  ⟨fun _ h => (by cases h), rfl, fun _ h => (by cases h), rfl⟩

/-- A coherent block whose output has settled, and every action of the host on it. -/
theorem witness_CoherenceIsKept_act :
    ({ appliedAt 5#32 3#32 with result := .settled 2 } : Ports 32).Coherent
      ∧ hostAct 0 (.drive .a .undriven) { appliedAt 5#32 3#32 with result := .settled 2 }
          = .next ({ appliedAt 5#32 3#32 with a := .undriven }, none)
      ∧ hostAct 0 (.drivePair 1 1) { appliedAt 5#32 3#32 with result := .settled 2 } = .next (appliedAt 1 1, none)
      ∧ hostAct 0 .awaitSettled { appliedAt 5#32 3#32 with result := .settled 2 }
          = .next ({ appliedAt 5#32 3#32 with result := .settled 2 }, none)
      ∧ hostAct 0 .readResult { appliedAt 5#32 3#32 with result := .settled 2 }
          = .next ({ appliedAt 5#32 3#32 with result := .settled 2 }, some 2) :=
  ⟨fun v h => ⟨5, 3, ⟨rfl, rfl⟩, by cases h; rfl⟩, rfl, rfl, rfl, rfl⟩

/-- Two instances with their evaluations under way; the second ends first. -/
theorem witness_InstancesAreIndependent :
    actInstance 1 .awaitSettled [appliedAt 1#8 1#8, appliedAt 5#8 3#8]
        = .ok ([appliedAt 1#8 1#8, { appliedAt 5#8 3#8 with result := .settled 2 }], none)
      ∧ actInstance 0 .awaitSettled [appliedAt 1#8 1#8, { appliedAt 5#8 3#8 with result := .settled 2 }]
        = .ok ([{ appliedAt 1#8 1#8 with result := .settled 0 }, { appliedAt 5#8 3#8 with result := .settled 2 }], none)
      ∧ (1 : Nat) ≠ 0 :=
  ⟨rfl, rfl, by decide⟩

/-- Two evaluations that overlap: both instances are driven before either has settled, the second settles and is
read, and then the first. -/
theorem witness_OverlappingEvaluationsDoNotInteract :
    runInstances
        [(0, .drivePair 7#8 1#8), (1, .drivePair 5#8 3#8), (1, .awaitSettled), (1, .readResult), (0, .awaitSettled),
          (0, .readResult)]
        [Ports.powerUp 8, Ports.powerUp 8]
      = .ok ([{ appliedAt 7#8 1#8 with result := .settled 6 }, { appliedAt 5#8 3#8 with result := .settled 2 }],
          [(1, 2#8), (0, 6#8)])
      ∧ [Ports.powerUp 8, Ports.powerUp 8][1]? = some (Ports.powerUp 8) :=
  ⟨rfl, rfl⟩

theorem witness_StageCountIsLeast : 32 ≤ 2 ^ 5 ∧ ¬ 32 ≤ 2 ^ 4 := by decide

theorem witness_CarryInjectionBits : 0 < 32 ∧ 31 < 32 := by decide

theorem witness_PrefixStageBits : 0 < 32 ∧ 31 < 32 := by decide

/-- Every position has its bound, and the final generate of `5 - 3` agrees with one whose top bit is cleared. -/
theorem witness_ResultBits :
    1 ≤ 32 ∧ (1 ≤ 1 ∧ 1 < 32) ∧ (1 ≤ 31 ∧ 31 < 32)
      ∧ ∀ i, i + 1 < 32 →
        (0x7FFFFFFD#32).getLsbD i = (prefixLevel 0x00000005#32 0x00000003#32 (stageCount 32)).g.getLsbD i := by
  refine ⟨by decide, by decide, by decide, fun i hi => ?_⟩
  have h : ∀ j : Fin 31, (0x7FFFFFFD#32).getLsbD j
      = (prefixLevel 0x00000005#32 0x00000003#32 (stageCount 32)).g.getLsbD j := by decide
  exact h ⟨i, by omega⟩

theorem witness_PropagateMeansTheWholeGroup : 0 < 32 ∧ 31 < 32 ∧ 2 + 1 < 2 ^ 2 := by decide

theorem witness_GenerateMeansAGroupCarry : 0 < 32 ∧ 31 < 32 := by decide

theorem witness_FinalCarriesAreRippleCarries : 0 < 1 ∧ 31 < 32 ∧ 1 ≤ 1 := by decide

theorem witness_StageCountsThatSuffice :
    stageCount 32 ≤ 5 ∧ stageCount 32 ≤ 6 ∧ 2 ≤ 2 ∧ 3 ≤ 3 ∧ (15 < 32 ∧ 15 < 2 ^ 4) ∧ 2 ≤ 2 := by decide

theorem witness_ShiftAmountsStayBelowTheWidth : 2 ≤ 2 ∧ 0 < stageCount 2 ∧ 4 < stageCount 32 := by decide

/-- Two vectors that differ only in the top bit. -/
theorem witness_FinalCarryIsNotAnOutput :
    1 ≤ 1 ∧ 0b100#3 ≠ 0b000#3 ∧ ∀ i, i + 1 < 3 → (0b100#3).getLsbD i = (0b000#3).getLsbD i := by
  refine ⟨by decide, by decide, fun i hi => ?_⟩
  obtain rfl | rfl : i = 0 ∨ i = 1 := by omega
  · decide
  · decide

/-- The three cases of the signed difference at their ends, at `W = 8`: no overflow at `127` and at `-128`,
overflow upward at `128`, overflow downward at `-129`. -/
theorem witness_SignedOverflowWraps :
    sint 0x7F#8 - sint 0x00#8 = 127 ∧ sint 0x80#8 - sint 0x00#8 = -128
      ∧ sint 0x7F#8 - sint 0xFF#8 = 128 ∧ sint 0x80#8 - sint 0x01#8 = -129 := by decide

/-- Both cases of the unsigned difference, and the least width. -/
theorem witness_UnsignedReadingOfTheResult :
    unsignedWrap 0x00#8 0x01#8 = true ∧ unsignedWrap 0x01#8 0x01#8 = false ∧ 1 ≤ 1 := by decide

theorem witness_SubSelfIsZero : 0 < 32 ∧ 31 < 32 := by decide

theorem witness_OperandRolesMatter : 2 ≤ 2 ∧ 0 < 32 ∧ 31 < 32 := by decide

theorem witness_HostSubStepHoldsTheDifference :
    (hostStart [(0, 5#32)]).halted = false ∧ (hostStart [(0, 5#32)]).line = 0 + 1
      ∧ [HostStep.sub 1 (.held 0) (.lit 3#32)][0]? = some (.sub 1 (.held 0) (.lit 3))
      ∧ operandValue (hostStart [(0, 5#32)]).held (.held 0) = .ok 5
      ∧ operandValue (hostStart [(0, 5#32)]).held (.lit 3) = .ok 3 ∧ (0 : Nat) ≠ 1 := by decide

/-- The branch's operands have values, equal and unequal. -/
theorem witness_HostControlFlowLeavesTheBlock :
    heldValue 0 (hostStart [(0, 5#32)]).held = some 5 ∧ operandValue (hostStart [(0, 5#32)]).held (.lit 5) = .ok 5
      ∧ operandValue (hostStart [(0, 5#32)]).held (.lit 3) = .ok 3 := by decide

theorem witness_HarnessNeverStopsOnAFail : 0 < trialCount ∧ 31 < trialCount := by decide

end Sys2Proof.Tests
end

section
/-! PROOFS, spec/00_scope.md: the readings of bit-vectors (R13), the value of a decimal literal (R15) and the
stage count (R8). -/

namespace Sys2Proof.Machine

/-! ## Readings of bit-vectors -/

section
variable {W : Nat}

theorem uint_lt (v : BitVec W) : uint v < 2 ^ W := v.isLt

/-- Two vectors with the same unsigned reading are the same vector. -/
theorem uint_inj {v w : BitVec W} : uint v = uint w ↔ v = w := BitVec.toNat_inj

/-- The low `n` bits of a vector, as the sum of what each of them weighs. -/
theorem uint_mod_two_pow_eq_sum (v : BitVec W) (n : Nat) :
    uint v % 2 ^ n = ((List.range n).map fun i => (v.getLsbD i).toNat * 2 ^ i).sum := by
  induction n with
  | zero => simp [Nat.mod_one]
  | succ n ih =>
    have hbit : (v.getLsbD n).toNat = uint v / 2 ^ n % 2 := Nat.toNat_testBit (uint v) n
    rw [List.sum_range_succ, ← ih, hbit, Nat.mod_pow_succ, Nat.mul_comm]

theorem uint_eq_sum (v : BitVec W) :
    uint v = ((List.range W).map fun i => (v.getLsbD i).toNat * 2 ^ i).sum := by
  rw [← uint_mod_two_pow_eq_sum, Nat.mod_eq_of_lt (uint_lt v)]

/-- R13's signed reading is Lean's own signed value of a bit-vector. -/
theorem sint_eq_toInt (v : BitVec W) : sint v = v.toInt := by
  rw [sint, uint, BitVec.toInt_eq_msb_cond]
  cases v.msb <;> simp

theorem neg_two_pow_le_sint (v : BitVec W) : -2 ^ (W - 1) ≤ sint v :=
  sint_eq_toInt v ▸ BitVec.le_toInt v

theorem sint_le (v : BitVec W) : sint v ≤ 2 ^ (W - 1) - 1 :=
  Int.le_sub_one_of_lt (sint_eq_toInt v ▸ BitVec.toInt_lt)

end

/-- The unsigned reading of `bv_W(x)` is the residue of `x`. -/
theorem uint_bv (W : Nat) (x : Int) : (uint (bv W x) : Int) = x % 2 ^ W := by
  have hres : 0 ≤ x % 2 ^ W := Int.emod_nonneg x (by positivity)
  simpa [uint, bv, BitVec.toNat_ofInt] using hres

/-- `bv_W(x)` is the only vector that reads as the residue of `x`. -/
theorem eq_bv_iff {W : Nat} {x : Int} {v : BitVec W} : v = bv W x ↔ (uint v : Int) = x % 2 ^ W := by
  rw [← uint_bv, Nat.cast_inj, uint_inj]

/-- Settles O7: the sum of the bits by induction on how many of them are summed, the signed range from Lean's own
signed value, and the uniqueness of `bv_W(x)` from its residue. -/
theorem readingsOfBitVectors : Obligations.ReadingsOfBitVectors := by
  refine ⟨fun W v => ⟨uint_eq_sum v, uint_lt v, ?signed, neg_two_pow_le_sint v, sint_le v⟩,
    fun W x v => eq_bv_iff, fun W => ⟨rfl, rfl⟩, by decide, by decide⟩
  case signed => rw [sint, BitVec.msb_eq_getLsbD_last]

/-! ## Decimal literals -/

/-- R15: a decimal literal denotes `bv_W` of its integer. -/
@[simp] theorem literalValue_dec (W : Nat) (x : Int) : literalValue W (.dec x) = bv W x := rfl

/-- Settles O6, by the residue of `bv_W` (R13). -/
theorem decimalLiteralsDenoteTheirResidue : Obligations.DecimalLiteralsDenoteTheirResidue :=
  ⟨fun W x => ⟨literalValue_dec W x, uint_bv W x⟩, by decide⟩

/-! ## The stage count -/

/-- The search finds a count that suffices when one lies within its fuel. -/
theorem le_two_pow_stagesFrom {W fuel n : Nat} (h : W ≤ 2 ^ (n + fuel)) : W ≤ 2 ^ stagesFrom W fuel n := by
  induction fuel generalizing n with
  | zero => exact h
  | succ fuel ih =>
    rw [stagesFrom]
    split
    case isTrue hn => exact hn
    case isFalse => exact ih (by rwa [Nat.add_right_comm])

/-- The search passes no count that suffices. -/
theorem stagesFrom_le {W fuel n m : Nat} (hnm : n ≤ m) (h : W ≤ 2 ^ m) : stagesFrom W fuel n ≤ m := by
  induction fuel generalizing n with
  | zero => exact hnm
  | succ fuel ih =>
    rw [stagesFrom]
    split
    case isTrue => exact hnm
    case isFalse hn =>
      have hne : n ≠ m := fun heq => hn (heq ▸ h)
      exact ih (Nat.lt_of_le_of_ne hnm hne)

/-- The fuel `W` is enough, since `W < 2^W`. -/
theorem le_two_pow_stageCount (W : Nat) : W ≤ 2 ^ stageCount W :=
  le_two_pow_stagesFrom (by simpa using Nat.lt_two_pow_self.le)

/-- R8: `m` stages are at least `n(W)` exactly when `2^m` reaches `W`. -/
theorem stageCount_le_iff {W m : Nat} : stageCount W ≤ m ↔ W ≤ 2 ^ m :=
  ⟨fun h => (le_two_pow_stageCount W).trans (Nat.pow_le_pow_right Nat.two_pos h), stagesFrom_le m.zero_le⟩

/-- Settles O22, by the characterisation of `n(W)` among all stage counts. -/
theorem stageCountIsLeast : Obligations.StageCountIsLeast :=
  ⟨fun W => ⟨le_two_pow_stageCount W, fun _ => stageCount_le_iff.2⟩, fun _ => rfl, by decide, by decide⟩

end Sys2Proof.Machine
end

section
/-! PROOFS, spec/10_state.md: the final carry and its place in the sum (R27), and the refusal of an evaluation
with an undriven input (R28). The network's carries rest on spec/41_prefix_network.md R74 to R83. -/

namespace Sys2Proof.Machine

section
variable {W : Nat}

/-! ## The bits of the signals -/

/-- R71: one addend bit is 1 and the other is not. -/
theorem seedLevel_p_getLsbD (a b : BitVec W) (i : Nat) :
    (seedLevel a b).p.getLsbD i = (a.getLsbD i ^^ (complement b).getLsbD i) :=
  BitVec.getLsbD_xor

/-- R72: a carry is born where both addend bits are 1, and at bit 0 also where one is. -/
theorem seedLevel_g_getLsbD (a b : BitVec W) (i : Nat) :
    (seedLevel a b).g.getLsbD i
      = (a.getLsbD i && (complement b).getLsbD i || decide (i = 0) && (seedLevel a b).p.getLsbD i) := by
  rw [seedLevel_g, ← seedLevel_p, BitVec.getLsbD_or, BitVec.getLsbD_and, BitVec.getLsbD_and, one_getLsbD]
  by_cases hi : i < W
  · simp [hi, complement, Bool.and_comm]
  · simp [hi, BitVec.getLsbD_of_ge _ i (Nat.le_of_not_lt hi)]

/-- R76: the shift by stage `k`'s span brings down to bit `i` the bit `2^k` places below it, or a 0. -/
theorem shiftLeft_span_getLsbD (v : BitVec W) {k i : Nat} (hi : i < W) :
    (v <<< span k).getLsbD i = (decide (2 ^ k ≤ i) && v.getLsbD (i - 2 ^ k)) := by
  simp only [span, BitVec.getLsbD_shiftLeft, hi, decide_true, Bool.true_and, ← decide_not, Nat.not_lt]

/-- R74, bit by bit. -/
theorem combineGenerate_getLsbD (k : Nat) (l : GenProp W) {i : Nat} (hi : i < W) :
    (combineGenerate k l).getLsbD i
      = (l.g.getLsbD i || l.p.getLsbD i && (decide (2 ^ k ≤ i) && l.g.getLsbD (i - 2 ^ k))) := by
  rw [combineGenerate, BitVec.getLsbD_or, BitVec.getLsbD_and, shiftLeft_span_getLsbD _ hi]

/-- R75, bit by bit. -/
theorem combinePropagate_getLsbD (k : Nat) (l : GenProp W) {i : Nat} (hi : i < W) :
    (combinePropagate k l).getLsbD i
      = (l.p.getLsbD i && (decide (2 ^ k ≤ i) && l.p.getLsbD (i - 2 ^ k))) := by
  rw [combinePropagate, BitVec.getLsbD_and, shiftLeft_span_getLsbD _ hi]

/-- R78, bit by bit: bit 0 has the `+1` in place of a shifted carry. -/
theorem finalSum_getLsbD (p g : BitVec W) {i : Nat} (hi : i < W) :
    (finalSum p g).getLsbD i = (p.getLsbD i ^^ if i = 0 then true else g.getLsbD (i - 1)) := by
  rw [finalSum, BitVec.getLsbD_xor, BitVec.getLsbD_xor, one_getLsbD, BitVec.getLsbD_shiftLeft]
  cases i <;> simp [hi]

/-! ## The network's carries are the ripple carries -/

/-- A full adder's carry is born in its bit, or handed on from the bit below. -/
theorem rippleCarry_succ_eq_propagate (a nb : BitVec W) (i : Nat) :
    rippleCarry a nb (i + 1)
      = (a.getLsbD i && nb.getLsbD i || (a.getLsbD i ^^ nb.getLsbD i) && rippleCarry a nb i) := by
  rw [rippleCarry_succ]
  cases a.getLsbD i <;> cases nb.getLsbD i <;> simp

/-- The invariant of the prefix stages: at level `k`, the carry out of bit `i` is born in the group of `2^k` bits
that ends at `i`, or handed on from below that group. A group that reaches bit 0 has the injected carry in its
generate bit and nothing below it. -/
theorem rippleCarry_eq_prefixLevel (a b : BitVec W) (k : Nat) {i : Nat} (hi : i < W) :
    rippleCarry a (complement b) (i + 1)
      = ((prefixLevel a b k).g.getLsbD i
          || (prefixLevel a b k).p.getLsbD i
              && (decide (2 ^ k ≤ i) && rippleCarry a (complement b) (i + 1 - 2 ^ k))) := by
  induction k generalizing i with
  | zero =>
    rw [prefixLevel_zero, seedLevel_g_getLsbD, seedLevel_p_getLsbD, rippleCarry_succ_eq_propagate]
    cases i <;> simp
  | succ k ih =>
    rw [ih hi, prefixLevel_succ, prefixStage_g, prefixStage_p, combineGenerate_getLsbD _ _ hi,
      combinePropagate_getLsbD _ _ hi]
    by_cases hk : 2 ^ k ≤ i
    case neg => simp [hk]
    case pos =>
      have hlow : i + 1 - 2 ^ k = i - 2 ^ k + 1 := by omega
      have hreach : 2 ^ k ≤ i - 2 ^ k ↔ 2 ^ (k + 1) ≤ i := by omega
      have hrest : i - 2 ^ k + 1 - 2 ^ k = i + 1 - 2 ^ (k + 1) := by omega
      rw [hlow, ih (Nat.lt_of_le_of_lt (Nat.sub_le _ _) hi), hrest]
      simp [hk, hreach, Bool.and_or_distrib_left, Bool.or_assoc, Bool.and_assoc, Bool.and_left_comm]

/-- R83: once the groups reach bit 0, the generate bits are the ripple carries. -/
theorem prefixLevel_g_eq_rippleCarry (a b : BitVec W) {k i : Nat} (hi : i < W) (hk : i < 2 ^ k) :
    (prefixLevel a b k).g.getLsbD i = rippleCarry a (complement b) (i + 1) := by
  simp [rippleCarry_eq_prefixLevel a b k hi, Nat.not_le_of_lt hk]

/-- R27: the final carry is the carry out of the whole addition `a + ~b + 1`. -/
theorem finalCarry_eq_rippleCarry (a b : BitVec W) (hW : 1 ≤ W) :
    finalCarry a b = rippleCarry a (complement b) W := by
  have hlast : W - 1 < W := Nat.sub_lt hW Nat.one_pos
  rw [finalCarry, prefixLevel_g_eq_rippleCarry a b hlast (Nat.lt_of_lt_of_le hlast (le_two_pow_stageCount W)),
    Nat.sub_add_cancel hW]

/-! ## The ripple carries tell the comparison -/

/-- The spec's ripple carries are Lean's carries of an addition with carry in. -/
theorem rippleCarry_eq_carry (a nb : BitVec W) (i : Nat) : rippleCarry a nb i = BitVec.carry i a nb true := by
  induction i with
  | zero => simp
  | succ i ih =>
    rw [rippleCarry_succ, BitVec.carry_succ, ih, Bool.atLeastTwo]

/-- R83: the carry out of `a + ~b + 1` is 1 exactly when the subtraction `a - b` does not borrow. -/
theorem rippleCarry_complement_width_iff (a b : BitVec W) :
    rippleCarry a (complement b) W = true ↔ uint b ≤ uint a := by
  rw [rippleCarry_eq_carry, complement, ← BitVec.ule_eq_carry, BitVec.ule_iff_toNat_le, uint, uint]

/-! ## The final shift discards the final carry -/

/-- R27, R78: the final sum reads no bit of the final generate but those below the top one. -/
theorem finalSum_congr {p g g' : BitVec W} (h : ∀ i, i + 1 < W → g.getLsbD i = g'.getLsbD i) :
    finalSum p g = finalSum p g' := by
  refine BitVec.eq_of_getLsbD_eq fun i hi => ?_
  rw [finalSum_getLsbD p g hi, finalSum_getLsbD p g' hi]
  cases i with
  | zero => rfl
  | succ i => simp [h i hi]

/-! ## Undriven inputs -/

/-- R28: ports with an undriven input present no operation word, since a word is presented only by a pair that
both ports hold. -/
theorem Ports.exists_presented_error_of_undriven {p : Ports W} (h : p.a = .undriven ∨ p.b = .undriven) :
    ∃ r, p.presented = .error r := by
  cases hp : p.presented with
  | error r => exact ⟨r, rfl⟩
  | ok op =>
    obtain ⟨x, y, ⟨ha, hb⟩, -⟩ := Ports.presented_ok_cases hp
    simp [ha, hb] at h

end

/-! ## The statements -/

/-- Settles O34: the final carry is the last ripple carry of `a + ~b + 1`, by the invariant of the prefix stages,
and the shift by one moves it past the top of the sum. -/
theorem finalCarryIsNotAnOutput : Obligations.FinalCarryIsNotAnOutput := by
  refine ⟨fun W a b hW => ?comparison, fun W p g g' => finalSum_congr⟩
  case comparison => rw [finalCarry_eq_rippleCarry a b hW, rippleCarry_complement_width_iff]

/-- Settles O12: without a word presented, the step of the machine and of a block of any width is refused. -/
theorem undrivenInputIsRefused : Obligations.UndrivenInputIsRefused := by
  refine ⟨fun s h => ?machine, fun W p h => ?block⟩
  case machine => exact (Ports.exists_presented_error_of_undriven h).imp fun _ => step_of_presented_error
  case block => exact (Ports.exists_presented_error_of_undriven h).imp fun _ => stepAt_of_presented_error

end Sys2Proof.Machine
end

section
/-! PROOFS, spec/20_memory.md: one evaluation as one transition (R34) and its repetition (R35). That the word of a
pair is decoded to the pair rests on spec/30_encoding.md R43 and R46. -/

namespace Sys2Proof.Machine

section
variable {W : Nat}

/-! ## The word of a pair is `SUB` of the pair -/

@[simp] theorem minuendField_packOperands (x y : BitVec W) : minuendField (packOperands x y) = x := by
  rw [minuendField, packOperands, BitVec.extractLsb'_cast, BitVec.extractLsb'_append_eq_left]

@[simp] theorem subtrahendField_packOperands (x y : BitVec W) : subtrahendField (packOperands x y) = y := by
  rw [subtrahendField, packOperands, BitVec.extractLsb'_cast, BitVec.extractLsb'_append_eq_right]

@[simp] theorem decodeAt_packOperands (x y : BitVec W) : decodeAt (packOperands x y) = .sub x y := by
  rw [decodeAt, minuendField_packOperands, subtrahendField_packOperands]

/-! ## The step evaluates the pair that the ports hold -/

/-- R34: an evaluation leaves its pair on the input ports. -/
theorem Ports.evaluate_holdsPair (p : Ports W) (x y : BitVec W) : (p.evaluate x y).holdsPair x y :=
  ⟨p.evaluate_a x y, p.evaluate_b x y⟩

theorem stepAt_of_holdsPair {p : Ports W} {x y : BitVec W} (h : p.holdsPair x y) :
    stepAt p = .next (p.evaluate x y) := by
  simp [stepAt, Ports.presented_of_holdsPair h]

theorem stepAt_next_iff {p q : Ports W} :
    stepAt p = .next q ↔ ∃ x y, p.holdsPair x y ∧ q = p.evaluate x y := by
  constructor
  case mp =>
    intro h
    obtain ⟨op, hop, hexec⟩ := stepAt_next_cases h
    obtain ⟨x, y, hpair, rfl⟩ := Ports.presented_ok_cases hop
    rw [decodeAt_packOperands, execAt_sub] at hexec
    exact ⟨x, y, hpair, (Host.Outcome.next.inj hexec).symm⟩
  case mpr =>
    rintro ⟨x, y, hpair, rfl⟩
    exact stepAt_of_holdsPair hpair

/-- R35, one repetition: the pair of an evaluation still stands on the ports, and evaluating it again writes what
they hold. -/
theorem stepAt_of_stepAt {p q : Ports W} (h : stepAt p = .next q) : stepAt q = .next q := by
  obtain ⟨x, y, -, rfl⟩ := stepAt_next_iff.1 h
  rw [stepAt_of_holdsPair (p.evaluate_holdsPair x y), Ports.evaluate_evaluate]

end

/-! ## The machine's step is the block's -/

theorem exec_ofBlock (i : BlockInstr Config.width) (s : State) :
    exec (.ofBlock i) s = liftOutcome (execAt i s.toPorts) := by
  cases i with
  | sub a b => rfl

/-- R7: the step of the machine is the step of the block of its width on its ports. -/
theorem step_eq_liftOutcome (s : State) : step s = liftOutcome (stepAt s.toPorts) := by
  cases h : s.presented with
  | error r => rw [step_of_presented_error h, stepAt_of_presented_error h, liftOutcome]
  | ok op => simp only [step, stepAt, h, decode, exec_ofBlock]

theorem step_next_iff {s t : State} : step s = .next t ↔ stepAt s.toPorts = .next t.toPorts := by
  rw [step_eq_liftOutcome]
  cases stepAt s.toPorts with
  | next p =>
    simp only [liftOutcome, Host.Outcome.next.injEq]
    exact ⟨fun h => h ▸ rfl, State.ext_ports⟩
  | fault f => cases f
  | refused r => simp [liftOutcome]

/-- R35, one repetition on the machine. -/
theorem step_of_step {s t : State} (h : step s = .next t) : step t = .next t :=
  step_next_iff.2 (stepAt_of_stepAt (step_next_iff.1 h))

/-! ## Runs -/

theorem run_succ_of_step {M : Host.Core} {s t : M.State} (h : M.step s = .next t) (n : Nat) :
    M.run (n + 1) s = M.run n t := by
  rw [Host.Core.run, h]

/-- A state that a step gives back is given back by every run from it. -/
theorem run_of_step_self {M : Host.Core} {t : M.State} (h : M.step t = .next t) (n : Nat) :
    M.run n t = .next t := by
  induction n with
  | zero => rfl
  | succ n ih => rw [run_succ_of_step h, ih]

/-! ## The statement -/

/-- Settles O15: the first step reaches a state that the step gives back, on the machine as on a block of any
width, and the rest of the run stays in it. -/
theorem repeatedEvaluationChangesNothing : Obligations.RepeatedEvaluationChangesNothing := by
  refine ⟨fun s t n h => ?machine, fun W p q => stepAt_of_stepAt⟩
  case machine =>
    calc Host.Core.run core (n + 1) s = Host.Core.run core n t := run_succ_of_step (M := core) h n
      _ = .next t := run_of_step_self (M := core) (step_of_step h) n

end Sys2Proof.Machine
end

section
/-! PROOFS, spec/30_encoding.md: the fields of the operation word (R43, R44, R46), its width (R48, R49) and the
pseudo-instruction `NEG` (R51). -/

namespace Sys2Proof

section
variable {W : Nat}

/-! ## The fields, bit by bit -/

/-- R43, R44: bit `i` of the minuend is bit `W + i` of the word. -/
theorem minuendField_getLsbD (op : BitVec (2 * W)) {i : Nat} (hi : i < W) :
    (minuendField op).getLsbD i = op.getLsbD (W + i) := by
  rw [minuendField, BitVec.getLsbD_extractLsb', decide_eq_true hi, Bool.true_and]

/-- R43, R44: bit `i` of the subtrahend is bit `i` of the word. -/
theorem subtrahendField_getLsbD (op : BitVec (2 * W)) {i : Nat} (hi : i < W) :
    (subtrahendField op).getLsbD i = op.getLsbD i := by
  rw [subtrahendField, BitVec.getLsbD_extractLsb', decide_eq_true hi, Bool.true_and, Nat.zero_add]

/-! ## The decoders -/

theorem decodeAt_eq (op : BitVec (2 * W)) : decodeAt op = .sub (minuendField op) (subtrahendField op) := rfl

theorem decode_eq (op : OpWord) : decode op = .sub (minuendField op) (subtrahendField op) := rfl

/-- R48: the decoder accepts every word of its own width. -/
@[simp] theorem decodeBitsAt_two_mul (op : BitVec (2 * W)) : decodeBitsAt W (2 * W) op = .ok (decodeAt op) := by
  rw [decodeBitsAt, dif_pos rfl, BitVec.cast_eq]

/-- R49: the decoder refuses every word of another width. -/
theorem decodeBitsAt_of_ne {n : Nat} (hn : n ≠ 2 * W) (op : BitVec n) :
    decodeBitsAt W n op = .error (.wrongWidth n) := by
  rw [decodeBitsAt, dif_neg hn]

end

end Sys2Proof

namespace Sys2Proof.Machine

/-! ## Presenting a word -/

section
variable {W : Nat}

/-- R33, R46: presenting a word of the block's own width applies the pair of its fields. -/
theorem Ports.presentWord_two_mul (p : Ports W) (op : BitVec (2 * W)) :
    p.presentWord (2 * W) op.toNat = p.drivePair (minuendField op) (subtrahendField op) := by
  have hwidth : opWidthOk W (2 * W) = true := beq_self_eq_true (2 * W)
  rw [Ports.presentWord, if_pos hwidth, BitVec.ofNat_toNat, BitVec.setWidth_eq]

theorem Ports.drivePair_holdsPair (p : Ports W) (x y : BitVec W) : (p.drivePair x y).holdsPair x y :=
  ⟨p.drivePair_a x y, p.drivePair_b x y⟩

theorem Ports.presentWord_holdsPair (p : Ports W) (op : BitVec (2 * W)) :
    (p.presentWord (2 * W) op.toNat).holdsPair (minuendField op) (subtrahendField op) :=
  p.presentWord_two_mul op ▸ p.drivePair_holdsPair _ _

end

/-! ## The assembler lines -/

/-- The literal `0x0` fits every width. -/
@[simp] theorem wellFormed_hex_zero (W : Nat) : (Literal.hex 0).wellFormed W = true :=
  decide_eq_true (Nat.two_pow_pos W)

@[simp] theorem literalValue_hex_zero (W : Nat) : literalValue W (.hex 0) = 0 := BitVec.ofInt_natCast W 0

/-- R50: what a `SUB` line denotes. -/
theorem assemble_sub (W : Nat) (a b : Literal) :
    assemble W (.sub a b)
      = if a.wellFormed W && b.wellFormed W then some (.sub (literalValue W a) (literalValue W b)) else none := rfl

/-- R51: what a `NEG` line denotes. -/
theorem assemble_neg (W : Nat) (b : Literal) :
    assemble W (.neg b) = if b.wellFormed W then some (.sub 0 (literalValue W b)) else none := rfl

/-! ## The statements -/

/-- Settles O1, with the two fields of the word as the operands. -/
theorem operandsTakenWholeFromTheirFields : Obligations.OperandsTakenWholeFromTheirFields := by
  refine ⟨fun W op p => ⟨minuendField op, subtrahendField op, decodeAt_eq op, ?bits, p.presentWord_holdsPair op⟩,
    fun op s => ⟨minuendField op, subtrahendField op, decodeAt_eq op, decode_eq op,
      s.toPorts.presentWord_holdsPair op⟩⟩
  case bits => exact fun i hi => ⟨minuendField_getLsbD op hi, subtrahendField_getLsbD op hi⟩

/-- Settles O4, by the decoder on words of its width and of any other. -/
theorem onlyWordsOfTwiceTheWidthDecode : Obligations.OnlyWordsOfTwiceTheWidthDecode := by
  intro W n op
  split
  case isTrue hn =>
    subst hn
    exact ⟨minuendField op, subtrahendField op, decodeBitsAt_two_mul op⟩
  case isFalse hn => exact decodeBitsAt_of_ne hn op

/-- Settles O5: `SUB 0, b` is turned away exactly where `NEG b` is, since the literal `0` fits every width. -/
theorem negExpandsToSubFromZero : Obligations.NegExpandsToSubFromZero := by
  refine fun W b => ⟨?same, fun hb => ?value⟩
  case same => rw [assemble_neg, assemble_sub, wellFormed_hex_zero, literalValue_hex_zero, Bool.true_and]
  case value => rw [assemble_neg, if_pos hb]

end Sys2Proof.Machine
end

section
/-! PROOFS, spec/40_subtract.md: the operation `SUB` (R53) and the arithmetic laws it obeys (R54 to R62). That the
network computes the difference of bit-vectors rests on spec/41_prefix_network.md R79 and R83. -/

namespace Sys2Proof.Machine

section
variable {W : Nat}

/-! ## The network computes the difference -/

/-- R79, R83: a bit of the result is the full adder's sum of the addend bits and the ripple carry into it. -/
theorem networkSub_getLsbD (a b : BitVec W) {i : Nat} (hi : i < W) :
    (networkSub a b).getLsbD i
      = (a.getLsbD i ^^ ((complement b).getLsbD i ^^ rippleCarry a (complement b) i)) := by
  rw [networkSub_eq, finalSum_getLsbD _ _ hi, seedLevel_p_getLsbD, Bool.xor_assoc]
  cases i with
  | zero => rfl
  | succ i =>
    have hreach : i < 2 ^ stageCount W := (Nat.lt_of_succ_lt hi).trans_le (le_two_pow_stageCount W)
    rw [if_neg i.succ_ne_zero, Nat.add_sub_cancel, prefixLevel_g_eq_rippleCarry a b (Nat.lt_of_succ_lt hi) hreach]

/-- Negation is complement plus one. -/
theorem complement_add_one (b : BitVec W) : complement b + one W = -b := (BitVec.neg_eq_not_add b).symm

/-- R84: the network's bits are those of the addition `a + ~b + 1`. -/
theorem networkSub_eq_sub (a b : BitVec W) : networkSub a b = a - b := by
  have hsum : networkSub a b = a + complement b + (BitVec.ofBool true).setWidth W := by
    refine BitVec.eq_of_getLsbD_eq fun i hi => ?_
    rw [networkSub_getLsbD a b hi, rippleCarry_eq_carry, BitVec.getLsbD_add_add_bool hi]
  have hone : (BitVec.ofBool true).setWidth W = one W :=
    BitVec.setWidth_ofNat_one_eq_ofNat_one_of_lt Nat.one_pos
  rw [hsum, hone, BitVec.add_assoc, complement_add_one, ← BitVec.sub_eq_add_neg]

theorem networkSub_eq_subtract (a b : BitVec W) : networkSub a b = subtract a b := by
  rw [networkSub_eq_sub, subtract_eq_sub]

/-! ## What an evaluation leaves on the ports -/

/-- R53: the whole of the ports after an evaluation. -/
theorem Ports.evaluate_eq (p : Ports W) (x y : BitVec W) :
    p.evaluate x y = { a := .driven x, b := .driven y, result := .settled (networkSub x y), draws := p.draws } := rfl

theorem State.evaluate_eq (s : State) (x y : Word) :
    s.evaluate x y = { a := .driven x, b := .driven y, result := .settled (networkSub x y), draws := s.draws } := rfl

/-! ## The named patterns -/

theorem bv_sub (x y : Int) : bv W (x - y) = bv W x - bv W y := by
  rw [bv, Int.sub_eq_add_neg, BitVec.ofInt_add, BitVec.ofInt_neg, ← BitVec.sub_eq_add_neg, bv, bv]

theorem bv_one : bv W 1 = one W := BitVec.ofInt_natCast W 1

theorem bv_neg_uint (b : BitVec W) : bv W (-(uint b : Int)) = -b := by
  rw [bv, BitVec.ofInt_neg, uint, BitVec.ofInt_natCast, BitVec.ofNat_toNat, BitVec.setWidth_eq]

/-- R13's `INT_MIN` is Lean's own. -/
theorem intMin_eq (W : Nat) : intMin W = BitVec.intMin W := by
  refine BitVec.eq_of_toNat_eq ?_
  have hcast : (2 ^ (W - 1) : Int) = ((2 ^ (W - 1) : Nat) : Int) := by push_cast; rfl
  rw [intMin, bv, hcast, BitVec.ofInt_natCast, BitVec.toNat_ofNat, BitVec.toNat_intMin]

theorem intMin_sub_one (W : Nat) : intMin W - one W = intMax W := by
  rw [intMin, intMax, bv_sub, bv_one]

theorem neg_intMin (W : Nat) : -intMin W = intMin W := by
  rw [intMin_eq, BitVec.neg_intMin]

/-- R53's corner case at the top of the range. -/
theorem intMax_sub_neg_one (W : Nat) : intMax W - bv W (-1) = intMin W := by
  rw [intMin, intMax, ← bv_sub, Int.sub_neg, Int.sub_add_cancel]

/-! ## The signed reading -/

theorem neg_two_pow_le_two_mul_sint (v : BitVec W) : -2 ^ W ≤ 2 * sint v :=
  sint_eq_toInt v ▸ BitVec.le_two_mul_toInt

theorem two_mul_sint_lt (v : BitVec W) : 2 * sint v < 2 ^ W :=
  sint_eq_toInt v ▸ BitVec.two_mul_toInt_lt

/-- R54: the result reads as the residue of the operands' difference that is nearest to 0. -/
theorem sint_networkSub (a b : BitVec W) : sint (networkSub a b) = (sint a - sint b).bmod (2 ^ W) := by
  rw [networkSub_eq_sub, sint_eq_toInt, BitVec.toInt_sub, sint_eq_toInt, sint_eq_toInt]

theorem bmod_two_pow_eq_self {x : Int} (hlo : -2 ^ W ≤ 2 * x) (hhi : 2 * x < 2 ^ W) : x.bmod (2 ^ W) = x :=
  Int.bmod_eq_of_le_mul_two (by push_cast; omega) (by push_cast; omega)

/-- R55: the difference runs past the top of the range. -/
theorem sint_networkSub_of_le {a b : BitVec W} (h : 2 ^ W ≤ 2 * (sint a - sint b)) :
    sint (networkSub a b) = sint a - sint b - 2 ^ W := by
  have ha := two_mul_sint_lt a
  have hb := neg_two_pow_le_two_mul_sint b
  calc sint (networkSub a b) = (sint a - sint b).bmod (2 ^ W) := sint_networkSub a b
    _ = (sint a - sint b - 2 ^ W).bmod (2 ^ W) := by simpa using (Int.sub_bmod_right _ (2 ^ W)).symm
    _ = sint a - sint b - 2 ^ W := bmod_two_pow_eq_self (by omega) (by omega)

/-- R55: the difference runs past the bottom of the range. -/
theorem sint_networkSub_of_lt {a b : BitVec W} (h : 2 * (sint a - sint b) < -2 ^ W) :
    sint (networkSub a b) = sint a - sint b + 2 ^ W := by
  have ha := neg_two_pow_le_two_mul_sint a
  have hb := two_mul_sint_lt b
  calc sint (networkSub a b) = (sint a - sint b).bmod (2 ^ W) := sint_networkSub a b
    _ = (sint a - sint b + 2 ^ W).bmod (2 ^ W) := by simpa using (Int.add_bmod_right _ (2 ^ W)).symm
    _ = sint a - sint b + 2 ^ W := bmod_two_pow_eq_self (by omega) (by omega)

/-- R55: the difference lies in the range. -/
theorem sint_networkSub_of_inRange {a b : BitVec W} (hlo : -2 ^ W ≤ 2 * (sint a - sint b))
    (hhi : 2 * (sint a - sint b) < 2 ^ W) : sint (networkSub a b) = sint a - sint b := by
  rw [sint_networkSub, bmod_two_pow_eq_self hlo hhi]

/-- R55: the range of a difference of two readings. -/
theorem neg_two_pow_lt_sint_sub (a b : BitVec W) : -2 ^ W < sint a - sint b := by
  have ha := neg_two_pow_le_two_mul_sint a
  have hb := two_mul_sint_lt b
  omega

theorem sint_sub_lt_two_pow (a b : BitVec W) : sint a - sint b < 2 ^ W := by
  have ha := two_mul_sint_lt a
  have hb := neg_two_pow_le_two_mul_sint b
  omega

/-! ## The bounds of the signed range, doubled so as to hold at width 0 too -/

theorem gt_intMax_iff {x : Int} : x > 2 ^ (W - 1) - 1 ↔ 2 ^ W ≤ 2 * x := by
  cases W with
  | zero => rw [Nat.zero_sub, Int.pow_zero]; omega
  | succ n => rw [Nat.add_sub_cancel, Int.pow_succ]; omega

theorem lt_intMin_iff {x : Int} (hx : -2 ^ W < x) : x < -2 ^ (W - 1) ↔ 2 * x < -2 ^ W := by
  cases W with
  | zero => rw [Int.pow_zero] at hx; rw [Nat.zero_sub, Int.pow_zero]; omega
  | succ n => rw [Nat.add_sub_cancel, Int.pow_succ]; omega

/-! ## Overflow, told from the sign bits -/

theorem msb_eq_sint_neg (v : BitVec W) : v.msb = decide (sint v < 0) := by
  rw [sint_eq_toInt, BitVec.msb_eq_toInt]

theorem signedOverflow_iff (a b r : BitVec W) :
    signedOverflow a b r = true ↔ ¬(sint a < 0 ↔ sint b < 0) ∧ ¬(sint r < 0 ↔ sint a < 0) := by
  simp only [signedOverflow, msb_eq_sint_neg, Bool.and_eq_true, bne_iff_ne, ne_eq, decide_eq_decide]

/-- R55: in each case of the difference, the signs of the operands and of the result decide. -/
theorem signedOverflow_networkSub_iff (a b : BitVec W) :
    signedOverflow a b (networkSub a b) = true ↔
      2 ^ W ≤ 2 * (sint a - sint b) ∨ 2 * (sint a - sint b) < -2 ^ W := by
  have halo := neg_two_pow_le_two_mul_sint a
  have hahi := two_mul_sint_lt a
  have hblo := neg_two_pow_le_two_mul_sint b
  have hbhi := two_mul_sint_lt b
  rw [signedOverflow_iff]
  by_cases hhi : 2 ^ W ≤ 2 * (sint a - sint b)
  case pos => rw [sint_networkSub_of_le hhi]; omega
  by_cases hlo : 2 * (sint a - sint b) < -2 ^ W
  case pos => rw [sint_networkSub_of_lt hlo]; omega
  rw [sint_networkSub_of_inRange (Int.not_lt.1 hlo) (Int.not_le.1 hhi)]
  omega

/-! ## The unsigned reading -/

theorem uint_subtract (a b : BitVec W) : (uint (subtract a b) : Int) = ((uint a : Int) - uint b) % 2 ^ W :=
  uint_bv W _

theorem uint_subtract_of_le {a b : BitVec W} (h : uint b ≤ uint a) :
    (uint (subtract a b) : Int) = uint a - uint b := by
  have ha : (uint a : Int) < 2 ^ W := mod_cast uint_lt a
  rw [uint_subtract, Int.emod_eq_of_lt (by omega) (by omega)]

/-- R56: the unsigned reading wraps. -/
theorem uint_subtract_of_lt {a b : BitVec W} (h : uint a < uint b) :
    (uint (subtract a b) : Int) = uint a - uint b + 2 ^ W := by
  have hb : (uint b : Int) < 2 ^ W := mod_cast uint_lt b
  rw [uint_subtract, ← Int.add_emod_right, Int.emod_eq_of_lt (by omega) (by omega)]

/-- R56, R83: the final carry is 1 exactly where the unsigned reading does not wrap. -/
theorem finalCarry_eq_not_unsignedWrap (a b : BitVec W) (hW : 1 ≤ W) : finalCarry a b = !unsignedWrap a b := by
  rw [Bool.eq_iff_iff, finalCarryIsNotAnOutput.1 W a b hW]
  simp [unsignedWrap]

/-! ## Equal operands: the longest carry chain -/

theorem seedLevel_self_p (a : BitVec W) : (seedLevel a a).p = all1 W := by
  refine BitVec.eq_of_getLsbD_eq fun i hi => ?_
  rw [seedLevel_p_getLsbD]
  simp [complement, all1, hi]

/-- R72: between equal operands no carry is born but the injected one. -/
theorem seedLevel_self_g_getLsbD (a : BitVec W) {i : Nat} (hi : i < W) :
    (seedLevel a a).g.getLsbD i = decide (i = 0) := by
  rw [seedLevel_g_getLsbD, seedLevel_self_p]
  simp [complement, all1, hi]

/-- Every bit of the chain hands the injected carry on. -/
theorem rippleCarry_self (a : BitVec W) {i : Nat} (hi : i ≤ W) : rippleCarry a (complement a) i = true := by
  induction i with
  | zero => rfl
  | succ i ih =>
    rw [rippleCarry_succ_eq_propagate, ih (Nat.le_of_succ_le hi)]
    simp [complement, Nat.lt_of_succ_le hi]

theorem prefixLevel_self_g (a : BitVec W) : (prefixLevel a a (stageCount W)).g = all1 W := by
  refine BitVec.eq_of_getLsbD_eq fun i hi => ?_
  rw [prefixLevel_g_eq_rippleCarry a a hi (hi.trans_le (le_two_pow_stageCount W)), rippleCarry_self a hi]
  simp [all1, hi]

/-! ## The roles of the operands -/

theorem twoPow_ne_zero {i : Nat} (hi : i < W) : BitVec.twoPow W i ≠ 0 := by
  intro h
  have hbit := congrArg (·.getLsbD i) h
  simp [hi] at hbit

theorem xor_twoPow_ne_self (v : BitVec W) {i : Nat} (hi : i < W) : v ^^^ BitVec.twoPow W i ≠ v :=
  fun h => twoPow_ne_zero hi (xor_left_eq_self_iff.1 h)

/-- R62: from width 2 on, `-1` and `1` differ in bit 1. -/
theorem neg_one_ne_one (hW : 2 ≤ W) : -one W ≠ one W := by
  intro h
  have hbit := congrArg (·.getLsbD 1) h
  simp only [one, BitVec.neg_one_eq_allOnes, BitVec.getLsbD_allOnes, BitVec.getLsbD_one] at hbit
  simp [show 1 < W from hW] at hbit

end

/-! ## The statements -/

/-- Settles O10: the network's result is the contract's, and the contract is the subtraction of bit-vectors. -/
theorem subCompletesWithTheDifference : Obligations.SubCompletesWithTheDifference := by
  refine ⟨fun a b s => ?machine, fun W a b p => ?block,
    fun W a b => ⟨rfl, subtract_eq_sub a b, ?zero, ?self, ?neg, uint_subtract_of_lt⟩,
    fun W => ⟨?negIntMin, ?intMinLessOne, ?intMaxLessNegOne⟩, by decide⟩
  case machine => rw [exec_sub, State.evaluate_eq, networkSub_eq_subtract, subtract]
  case block => rw [execAt_sub, Ports.evaluate_eq, networkSub_eq_subtract, subtract]
  case zero => rw [subtract_eq_sub, sub_zero]
  case self => rw [subtract_eq_sub, sub_self]
  case neg => rw [subtract_eq_sub, zero_sub]
  case negIntMin => rw [subtract_eq_sub, zero_sub, neg_intMin]
  case intMinLessOne => rw [subtract_eq_sub, intMin_sub_one]
  case intMaxLessNegOne => rw [subtract_eq_sub, intMax_sub_neg_one]

/-- Settles O35: the nearest residue to 0 is a residue, and every signed reading lies in the range. -/
theorem signedReadingOfTheResult : Obligations.SignedReadingOfTheResult := by
  refine fun W a b => ⟨?residue, neg_two_pow_le_sint _, sint_le _⟩
  case residue =>
    rw [sint_networkSub, ← Int.emod_eq_emod_iff_emod_sub_eq_zero]
    exact mod_cast Int.bmod_emod (m := 2 ^ W)

/-- Settles O36: the three cases of the difference, each with its own reading of the result. -/
theorem signedOverflowWraps : Obligations.SignedOverflowWraps := by
  refine ⟨fun W a b => ?block, fun a b s => ?machine⟩
  case machine => rw [exec_sub, State.evaluate_eq]
  case block =>
    have hlo := neg_two_pow_lt_sint_sub a b
    have hhi := sint_sub_lt_two_pow a b
    refine ⟨by omega, by omega, ?reading, ?overflow, fun p => by rw [execAt_sub, Ports.evaluate_eq]⟩
    case overflow => rw [signedOverflow_networkSub_iff, gt_intMax_iff, lt_intMin_iff hlo]
    case reading =>
      split
      case isTrue htop => exact sint_networkSub_of_le (gt_intMax_iff.1 htop)
      case isFalse htop =>
        rw [gt_intMax_iff, Int.not_le] at htop
        split
        case isTrue hbot => exact sint_networkSub_of_lt ((lt_intMin_iff hlo).1 hbot)
        case isFalse hbot =>
          rw [lt_intMin_iff hlo, Int.not_lt] at hbot
          exact sint_networkSub_of_inRange hbot htop

/-- Settles O37: the residue of the unsigned difference, by whether it wraps. -/
theorem unsignedReadingOfTheResult : Obligations.UnsignedReadingOfTheResult := by
  intro W a b
  rw [networkSub_eq_subtract]
  refine ⟨uint_subtract a b, ?cases, finalCarry_eq_not_unsignedWrap a b⟩
  by_cases h : uint a < uint b
  case pos => rw [unsignedWrap, decide_eq_true h, if_pos rfl, uint_subtract_of_lt h]
  case neg => simp [unsignedWrap, h, uint_subtract_of_le (Nat.le_of_not_lt h)]

/-- Settles O38, by the subtraction of bit-vectors. -/
theorem subZeroIsIdentity : Obligations.SubZeroIsIdentity := by
  intro W a
  rw [networkSub_eq_sub, sub_zero]

/-- Settles O39: every bit propagates, so that the injected carry is the ripple carry out of every bit. -/
theorem subSelfIsZero : Obligations.SubSelfIsZero := by
  refine fun W a => ⟨?result, seedLevel_self_p a, fun i => seedLevel_self_g_getLsbD a, prefixLevel_self_g a⟩
  case result => rw [networkSub_eq_sub, sub_self]

/-- Settles O40, at every width, and on the machine by its evaluation of the pair. -/
theorem intMinLessOneIsIntMax : Obligations.IntMinLessOneIsIntMax := by
  have hnet (W : Nat) : networkSub (intMin W) (one W) = intMax W := by rw [networkSub_eq_sub, intMin_sub_one]
  refine ⟨hnet, fun s => ⟨_, exec_sub _ _ s, ?machine⟩⟩
  case machine => exact congrArg Output.settled (hnet 32)

/-- Settles O41: both forms are the negation of a bit-vector. -/
theorem subFromZeroNegates : Obligations.SubFromZeroNegates := by
  intro W b
  simp only [networkSub_eq_sub, zero_sub]
  exact ⟨(bv_neg_uint b).symm, (complement_add_one b).symm, neg_intMin W⟩

/-- Settles O42: subtraction is injective in each operand, so that a flipped bit shows in the result; the pair
`(0, ONE)` has two results from width 2 on. -/
theorem operandRolesMatter : Obligations.OperandRolesMatter := by
  simp only [Obligations.OperandRolesMatter, networkSub_eq_sub]
  refine ⟨fun W a b => (zero_sub_sub a b).symm, fun W hW => ⟨0, one W, ?order⟩,
    fun W a b i hi => ⟨?minuend, ?subtrahend⟩⟩
  case order =>
    rw [zero_sub, sub_zero]
    exact neg_one_ne_one hW
  case minuend => exact sub_left_injective.ne (xor_twoPow_ne_self a hi)
  case subtrahend => exact sub_right_injective.ne (xor_twoPow_ne_self b hi)

end Sys2Proof.Machine
end

section
/-! PROOFS, spec/41_prefix_network.md: the seeds and stages bit by bit (R72 to R76), the meaning of the group
signals (R81, R82), the final carries (R83), the result (R79, R84), the forms the spec allows (R77, R80), and the
stage counts and shift amounts (R85, R86). -/

namespace Sys2Proof.Machine

/-! ## Groups of bits -/

section
variable {W : Nat}

/-- Every bit of the group `lo..i` propagates. -/
def GroupPropagates (p : BitVec W) (lo i : Nat) : Prop := ∀ j, lo ≤ j → j ≤ i → p.getLsbD j = true

/-- The group `lo..i` sends a carry out of bit `i`: one is born at some bit of it, and every bit above hands it on. -/
def GroupGenerates (g p : BitVec W) (lo i : Nat) : Prop :=
  ∃ j, lo ≤ j ∧ j ≤ i ∧ g.getLsbD j = true ∧ GroupPropagates p (j + 1) i

theorem groupPropagates_singleton (p : BitVec W) (i : Nat) : GroupPropagates p i i ↔ p.getLsbD i = true :=
  ⟨fun h => h i le_rfl le_rfl, fun h _ hlo hhi => le_antisymm hhi hlo ▸ h⟩

/-- A group propagates exactly when its upper and its lower part do. -/
theorem groupPropagates_join (p : BitVec W) {lo m u i : Nat} (hu : m + 1 = u) (hlo : lo ≤ u) (hm : m ≤ i) :
    GroupPropagates p lo i ↔ GroupPropagates p u i ∧ GroupPropagates p lo m := by
  subst hu
  refine ⟨fun h => ⟨fun j hj => h j (hlo.trans hj), fun j hj hjm => h j hj (hjm.trans hm)⟩, ?join⟩
  case join =>
    rintro ⟨hup, hdown⟩ j hj hji
    obtain hjm | hjm := Nat.lt_or_ge m j
    · exact hup j hjm hji
    · exact hdown j hj hjm

theorem groupGenerates_singleton (g p : BitVec W) (i : Nat) : GroupGenerates g p i i ↔ g.getLsbD i = true := by
  refine ⟨fun ⟨j, hlo, hhi, hg, _⟩ => le_antisymm hhi hlo ▸ hg, fun hg => ⟨i, le_rfl, le_rfl, hg, ?above⟩⟩
  case above => exact fun j hj hji => absurd hji (Nat.not_le_of_lt hj)

/-- A group generates exactly when its upper part does, or hands on what its lower part generates. -/
theorem groupGenerates_join (g p : BitVec W) {lo m u i : Nat} (hu : m + 1 = u) (hlo : lo ≤ u) (hm : m ≤ i) :
    GroupGenerates g p lo i ↔ GroupGenerates g p u i ∨ GroupPropagates p u i ∧ GroupGenerates g p lo m := by
  subst hu
  constructor
  case mp =>
    rintro ⟨j, hj, hji, hg, hp⟩
    obtain hjm | hjm := Nat.lt_or_ge m j
    · exact .inl ⟨j, hjm, hji, hg, hp⟩
    · obtain ⟨hup, hdown⟩ := (groupPropagates_join p rfl (Nat.succ_le_succ hjm) hm).1 hp
      exact .inr ⟨hup, j, hj, hjm, hg, hdown⟩
  case mpr =>
    rintro (⟨j, hj, hji, hg, hp⟩ | ⟨hup, j, hj, hjm, hg, hdown⟩)
    · exact ⟨j, hlo.trans hj, hji, hg, hp⟩
    · exact ⟨j, hj, hjm.trans hm, hg, (groupPropagates_join p rfl (Nat.succ_le_succ hjm) hm).2 ⟨hup, hdown⟩⟩

/-! ## The group signals -/

/-- R72, R82: the bits of `G_0` are the per-bit generates, with the carry into bit 0 folded in. -/
theorem bitGenerate_complement (a b : BitVec W) (j : Nat) :
    bitGenerate a (complement b) j = (seedLevel a b).g.getLsbD j := by
  rw [seedLevel_g_getLsbD, seedLevel_p_getLsbD, bitGenerate]
  split
  case isTrue hj =>
    subst hj
    cases a.getLsbD 0 <;> simp
  case isFalse hj => simp [hj]

/-- R81: `P_k[i]` says that the `2^k` bits ending at `i` exist and all propagate. -/
theorem prefixLevel_p_getLsbD_iff (a b : BitVec W) (k : Nat) {i : Nat} (hi : i < W) :
    (prefixLevel a b k).p.getLsbD i = true
      ↔ 2 ^ k ≤ i + 1 ∧ GroupPropagates (seedLevel a b).p (i + 1 - 2 ^ k) i := by
  induction k generalizing i with
  | zero => simp [groupPropagates_singleton]
  | succ k ih =>
    rw [prefixLevel_succ, prefixStage_p, combinePropagate_getLsbD _ _ hi, Bool.and_eq_true, Bool.and_eq_true,
      decide_eq_true_iff, ih hi, ih (Nat.lt_of_le_of_lt (Nat.sub_le _ _) hi)]
    by_cases hk : 2 ^ k ≤ i
    case neg =>
      have hshort : ¬ 2 ^ (k + 1) ≤ i + 1 := by omega
      simp [hk, hshort]
    case pos =>
      have hlow : i - 2 ^ k + 1 = i + 1 - 2 ^ k := by omega
      have hreach : 2 ^ k ≤ i + 1 - 2 ^ k ↔ 2 ^ (k + 1) ≤ i + 1 := by omega
      have hrest : i + 1 - 2 ^ k - 2 ^ k = i + 1 - 2 ^ (k + 1) := by omega
      have hlo : i + 1 - 2 ^ (k + 1) ≤ i + 1 - 2 ^ k := hrest ▸ Nat.sub_le _ _
      rw [hlow, hreach, hrest, groupPropagates_join _ hlow hlo (Nat.sub_le _ _)]
      simp [hk, Nat.le_succ_of_le hk, and_left_comm]

/-- R82: `G_k[i]` says that the bits ending at `i`, `2^k` of them or all, send a carry out of bit `i`. -/
theorem prefixLevel_g_getLsbD_iff (a b : BitVec W) (k : Nat) {i : Nat} (hi : i < W) :
    (prefixLevel a b k).g.getLsbD i = true
      ↔ GroupGenerates (seedLevel a b).g (seedLevel a b).p (i + 1 - 2 ^ k) i := by
  induction k generalizing i with
  | zero => simp [groupGenerates_singleton]
  | succ k ih =>
    rw [prefixLevel_succ, prefixStage_g, combineGenerate_getLsbD _ _ hi, Bool.or_eq_true, Bool.and_eq_true,
      Bool.and_eq_true, decide_eq_true_iff, prefixLevel_p_getLsbD_iff a b k hi, ih hi,
      ih (Nat.lt_of_le_of_lt (Nat.sub_le _ _) hi)]
    by_cases hk : 2 ^ k ≤ i
    case neg =>
      have hwhole : i + 1 - 2 ^ k = i + 1 - 2 ^ (k + 1) := by omega
      simp [hk, hwhole]
    case pos =>
      have hlow : i - 2 ^ k + 1 = i + 1 - 2 ^ k := by omega
      have hrest : i + 1 - 2 ^ k - 2 ^ k = i + 1 - 2 ^ (k + 1) := by omega
      have hlo : i + 1 - 2 ^ (k + 1) ≤ i + 1 - 2 ^ k := hrest ▸ Nat.sub_le _ _
      rw [hlow, hrest, groupGenerates_join _ _ hlow hlo (Nat.sub_le _ _)]
      simp [hk, Nat.le_succ_of_le hk]

/-! ## The final carries -/

/-- R83: `n(W)` stages bring every group down to bit 0. -/
theorem finalGenerate_getLsbD (a b : BitVec W) {i : Nat} (hi : i < W) :
    (prefixLevel a b (stageCount W)).g.getLsbD i = rippleCarry a (complement b) (i + 1) :=
  prefixLevel_g_eq_rippleCarry a b hi (hi.trans_le (le_two_pow_stageCount W))

/-- The carry into bit `n` depends only on the bits below it. -/
theorem rippleCarry_congr {V : Nat} {x y : BitVec W} {x' y' : BitVec V} {n : Nat}
    (hx : ∀ i, i < n → x.getLsbD i = x'.getLsbD i) (hy : ∀ i, i < n → y.getLsbD i = y'.getLsbD i) :
    rippleCarry x y n = rippleCarry x' y' n := by
  induction n with
  | zero => rfl
  | succ n ih =>
    rw [rippleCarry_succ, rippleCarry_succ, hx n n.lt_succ_self, hy n n.lt_succ_self,
      ih (fun i hi => hx i (Nat.lt_succ_of_lt hi)) (fun i hi => hy i (Nat.lt_succ_of_lt hi))]

/-- R83: the carry out of bit `i` compares the low parts, since it is the last carry of their own subtraction. -/
theorem rippleCarry_complement_iff_lowBits (a b : BitVec W) {i : Nat} (hi : i < W) :
    rippleCarry a (complement b) (i + 1) = true ↔ lowBits b i ≤ lowBits a i := by
  have hlow : rippleCarry a (complement b) (i + 1)
      = rippleCarry (a.extractLsb' 0 (i + 1)) (complement (b.extractLsb' 0 (i + 1))) (i + 1) := by
    refine rippleCarry_congr (fun j hj => ?minuend) (fun j hj => ?subtrahend)
    case minuend => simp [hj]
    case subtrahend => simp [complement, hj, Nat.lt_of_lt_of_le hj hi]
  rw [hlow, rippleCarry_complement_width_iff, lowBits, lowBits, uint, uint]

/-- R83: the subtraction borrows out of a bit exactly where the addition of the complement does not carry. -/
theorem borrowOut_eq_not_rippleCarry (a b : BitVec W) {i : Nat} (hi : i < W) :
    borrowOut a b i = !rippleCarry a (complement b) (i + 1) := by
  have hnb {j : Nat} (hj : j < W) : (complement b).getLsbD j = !b.getLsbD j := by simp [complement, hj]
  induction i with
  | zero =>
    rw [borrowOut, rippleCarry_succ, rippleCarry_zero, hnb hi]
    cases a.getLsbD 0 <;> simp
  | succ i ih =>
    rw [borrowOut, ih (Nat.lt_of_succ_lt hi), rippleCarry_succ _ _ (i + 1), hnb hi]
    cases a.getLsbD (i + 1) <;> cases b.getLsbD (i + 1) <;> cases rippleCarry a (complement b) (i + 1) <;> rfl

/-! ## The result, bit by bit -/

/-- R79: bit 0 of the result, in which the shifted carry has no part. -/
theorem networkSub_getLsbD_zero (a b : BitVec W) (hW : 1 ≤ W) :
    (networkSub a b).getLsbD 0 = !(seedLevel a b).p.getLsbD 0 := by
  rw [networkSub_eq, finalSum_getLsbD _ _ hW, if_pos rfl, Bool.xor_true]

/-- R69, R71: a bit propagates exactly where the operands agree. -/
theorem not_seedLevel_p_getLsbD (a b : BitVec W) {i : Nat} (hi : i < W) :
    (!(seedLevel a b).p.getLsbD i) = (a.getLsbD i ^^ b.getLsbD i) := by
  rw [seedLevel_p_getLsbD]
  simp [complement, hi]

/-! ## The form without the last propagate vector -/

/-- R77: the final sum reads only the generate vector of the last level. -/
theorem networkSubOmittingLast_eq (a b : BitVec W) : networkSubOmittingLast a b = networkSub a b := by
  rw [networkSub_eq, networkSubOmittingLast]
  split
  case h_1 hnone => rw [hnone, prefixLevel_zero]
  case h_2 k hsome => rw [hsome, prefixLevel_succ, prefixStage_g]

/-! ## Stage counts -/

/-- R85: the result reads no final carry above bit `W-2`, so that `2^m >= W - 1` is enough. -/
theorem networkSubAfter_eq_subtract {m : Nat} (hm : W ≤ 2 ^ m + 1) (a b : BitVec W) :
    networkSubAfter m a b = subtract a b := by
  rw [← networkSub_eq_subtract, networkSub_eq, networkSubAfter]
  refine finalSum_congr fun i hi => ?_
  rw [finalGenerate_getLsbD a b (Nat.lt_of_succ_lt hi),
    prefixLevel_g_eq_rippleCarry a b (Nat.lt_of_succ_lt hi) (by omega)]

/-- Between equal operands the injected carry has come no further than bit `2^m - 1` after `m` stages. -/
theorem prefixLevel_self_g_getLsbD_two_pow (a : BitVec W) {m : Nat} (hm : 2 ^ m < W) :
    (prefixLevel a a m).g.getLsbD (2 ^ m) = false := by
  rw [Bool.eq_false_iff, Ne, prefixLevel_g_getLsbD_iff a a m hm, Nat.add_sub_cancel_left]
  rintro ⟨j, hpos, hj, hg, -⟩
  rw [seedLevel_self_g_getLsbD a (hj.trans_lt hm), decide_eq_true_iff] at hg
  exact Nat.ne_of_gt hpos hg

/-- R85: with `2^m < W - 1`, the result of equal operands has bit `2^m + 1` set. -/
theorem networkSubAfter_self_ne_subtract (a : BitVec W) {m : Nat} (hm : 2 ^ m + 1 < W) :
    networkSubAfter m a a ≠ subtract a a := by
  intro h
  have hbit := congrArg (·.getLsbD (2 ^ m + 1)) h
  simp only [networkSubAfter, finalSum_getLsbD _ _ hm, if_neg (Nat.succ_ne_zero _), Nat.add_sub_cancel,
    prefixLevel_self_g_getLsbD_two_pow a (Nat.lt_of_succ_lt hm), seedLevel_self_p, subtract_eq_sub, sub_self] at hbit
  simp [all1, hm] at hbit

end

/-- R85: from `2^2` on, taking 1 from a power of two takes no stage away. -/
theorem two_pow_sub_one_le_two_pow_iff {j m : Nat} (hj : 2 ≤ j) : 2 ^ j - 1 ≤ 2 ^ m ↔ 2 ^ j ≤ 2 ^ m := by
  refine ⟨fun h => Nat.pow_le_pow_right Nat.two_pos (Nat.le_of_not_lt fun hmj => ?short), (Nat.sub_le _ _).trans⟩
  case short =>
    obtain ⟨t, rfl⟩ : ∃ t, j = t + 1 := ⟨j - 1, by omega⟩
    have hhalf : 2 ^ m ≤ 2 ^ t := Nat.pow_le_pow_right Nat.two_pos (Nat.le_of_lt_succ hmj)
    have htwo : 2 ^ 1 ≤ 2 ^ t := Nat.pow_le_pow_right Nat.two_pos (Nat.le_of_succ_le_succ hj)
    rw [Nat.pow_succ] at h
    omega

theorem stageCount_32 : stageCount 32 = 5 := by decide

/-! ## The statements -/

/-- Settles O26, by the join of two neighbouring groups in every stage. -/
theorem propagateMeansTheWholeGroup : Obligations.PropagateMeansTheWholeGroup := by
  refine fun W a b k i hi => ⟨prefixLevel_p_getLsbD_iff a b k hi, fun hshort => ?zero⟩
  case zero =>
    rw [Bool.eq_false_iff, Ne, prefixLevel_p_getLsbD_iff a b k hi]
    exact fun h => Nat.not_le_of_lt hshort h.1

/-- Settles O27, by the join of two neighbouring groups in every stage. -/
theorem generateMeansAGroupCarry : Obligations.GenerateMeansAGroupCarry := by
  refine fun W a b => ⟨fun j _ => bitGenerate_complement a b j, fun k i hi => ?group⟩
  case group =>
    simp only [bitGenerate_complement]
    exact prefixLevel_g_getLsbD_iff a b k hi

/-- Settles O28: the final generates are the ripple carries, and those compare the low parts and complement the
borrows. -/
theorem finalCarriesAreRippleCarries : Obligations.FinalCarriesAreRippleCarries := by
  refine fun W a b => ⟨fun i hi => ⟨finalGenerate_getLsbD a b hi, ?comparison, ?borrow⟩,
    finalCarryIsNotAnOutput.1 W a b⟩
  case comparison => rw [finalGenerate_getLsbD a b hi, rippleCarry_complement_iff_lowBits a b hi]
  case borrow => rw [finalGenerate_getLsbD a b hi, borrowOut_eq_not_rippleCarry a b hi, Bool.not_eq_true']

/-- Settles O29, by the full adder's bits of the network (R79, R83). -/
theorem networkMeetsTheContract : Obligations.NetworkMeetsTheContract :=
  fun _ => networkSub_eq_subtract

/-- Settles O25, by the bits of the final sum. -/
theorem resultBits : Obligations.ResultBits := by
  refine fun W a b => ⟨fun hW => ⟨networkSub_getLsbD_zero a b hW, ?addends, ?operands⟩, fun i hpos hi => ?above,
    fun g => finalSum_congr⟩
  case addends => rw [networkSub_getLsbD_zero a b hW, seedLevel_p_getLsbD]
  case operands => rw [networkSub_getLsbD_zero a b hW, not_seedLevel_p_getLsbD a b hW]
  case above => rw [networkSub_eq, finalSum_getLsbD _ _ hi, if_neg (Nat.ne_of_gt hpos)]

/-- Settles O32: a count suffices when the groups reach bit 0 from bit `W-2`, and `0 - 0` shows any smaller count
to be too few. -/
theorem stageCountsThatSuffice : Obligations.StageCountsThatSuffice := by
  refine ⟨fun W m a b hm => ⟨?sameGenerate, ?enough⟩, fun W m hW => networkSubAfter_eq_subtract ?narrow,
    fun W m _ => ?least, fun W k i a b hi hk => ?covered, fun j hj => ?powerOfTwo, by decide⟩
  case sameGenerate =>
    refine BitVec.eq_of_getLsbD_eq fun i hi => ?_
    rw [finalGenerate_getLsbD a b hi, prefixLevel_g_eq_rippleCarry a b hi (hi.trans_le (stageCount_le_iff.1 hm))]
  case enough => exact networkSubAfter_eq_subtract (Nat.le_succ_of_le (stageCount_le_iff.1 hm)) a b
  case narrow => exact hW.trans (Nat.succ_le_succ (Nat.two_pow_pos m))
  case least =>
    rw [stageCount_le_iff, Nat.sub_le_iff_le_add]
    refine ⟨fun h => Nat.le_of_not_lt fun hfew => ?_, networkSubAfter_eq_subtract⟩
    exact networkSubAfter_self_ne_subtract 0 hfew (h 0 0)
  case covered =>
    have hnext : i < 2 ^ (k + 1) := hk.trans (Nat.pow_lt_pow_succ Nat.one_lt_two)
    rw [prefixLevel_g_eq_rippleCarry a b hi hnext, prefixLevel_g_eq_rippleCarry a b hi hk]
  case powerOfTwo =>
    refine eq_of_forall_ge_iff fun m => ?_
    rw [stageCount_le_iff, stageCount_le_iff, two_pow_sub_one_le_two_pow_iff hj]

/-- Settles O33: a stage is there only because its span is below `W`, and at `W = 1` the result is its bit 0. -/
theorem shiftAmountsStayBelowTheWidth : Obligations.ShiftAmountsStayBelowTheWidth := by
  have hshift (g : BitVec 1) : g <<< 1 = 0 := BitVec.shiftLeft_eq_zero le_rfl
  refine ⟨fun W hW => ⟨?stage, fun k hk => ?span⟩, by decide, by decide, by decide, hshift,
    fun a b => ⟨?seed, ?operands⟩⟩
  case stage => exact Nat.lt_of_not_le fun h => absurd (stageCount_le_iff.1 h) (Nat.not_le_of_lt hW)
  case span => exact Nat.lt_of_not_le fun h => absurd (stageCount_le_iff.2 h) (Nat.not_le_of_lt hk)
  case seed =>
    rw [networkSub_eq, finalSum, hshift]
    exact congrArg (· ^^^ one 1) BitVec.xor_zero
  case operands =>
    refine BitVec.eq_of_getLsbD_eq fun i hi => ?_
    obtain rfl : i = 0 := Nat.lt_one_iff.1 hi
    rw [networkSub_getLsbD_zero a b le_rfl, not_seedLevel_p_getLsbD a b hi, BitVec.getLsbD_xor]

/-- Settles O23: the bits of `G_0` are the per-bit generates. -/
theorem carryInjectionBits : Obligations.CarryInjectionBits := by
  refine fun W a b => ⟨rfl, rfl, fun i _ => ?bit⟩
  case bit => rw [← bitGenerate_complement, bitGenerate, rawGenerate, BitVec.getLsbD_and]

/-- Settles O24, by the bits of the two combinations. -/
theorem prefixStageBits : Obligations.PrefixStageBits :=
  fun _ k l => ⟨rfl, rfl, fun _ hi => ⟨combineGenerate_getLsbD k l hi, combinePropagate_getLsbD k l hi⟩⟩

/-- Settles O30: with 5 stages, the signals are the program's lines. -/
theorem straightLineIsTheNetworkAt32 : Obligations.StraightLineIsTheNetworkAt32 := by
  refine ⟨fun a b => ?program, by decide⟩
  case program =>
    rw [networkSub_eq, stageCount_32]
    rfl

/-- Settles O31, by the final sum at `W`, and at 32 by its 5 stages. -/
theorem lastPropagateMayBeOmitted : Obligations.LastPropagateMayBeOmitted := by
  refine ⟨fun W => networkSubOmittingLast_eq, fun a b => ?last⟩
  case last =>
    rw [networkSubOmittingLast_eq, networkSub_eq, stageCount_32]
    rfl

end Sys2Proof.Machine
end

section
/-! PROOFS, spec/60_exceptions.md: the block raises no exception (R88), and a run of the reference harness prints
every line whatever the verdicts (R103, R105). -/

namespace Sys2Proof.Machine

/-! ## No exception -/

/-- R88: no outcome of the block is a fault, since there is no reason for one. -/
theorem outcome_ne_fault {σ ρ : Type} (o : Host.Outcome σ Fault ρ) (f : Fault) : o ≠ .fault f := by
  cases f

/-- R91, R109: the step after the host has applied a pair is its evaluation, on a block of any width. -/
@[simp] theorem stepAt_drivePair {W : Nat} (p : Ports W) (x y : BitVec W) :
    stepAt (p.drivePair x y) = .next (p.evaluate x y) := by
  rw [stepAt_of_holdsPair (p.drivePair_holdsPair x y), Ports.evaluate_drivePair]

/-- R91, R109: the step after the host has applied a pair is its evaluation, on the machine. -/
@[simp] theorem step_drivePair (s : State) (x y : Word) : step (s.drivePair x y) = .next (s.evaluate x y) :=
  step_next_iff.2 (stepAt_drivePair s.toPorts x y)

/-! ## The harness -/

section
variable (block : Word → Word → Word) (pairs : Vector (Word × Word) trialCount)

@[simp] theorem harnessRun_exitStatus : (harnessRun block pairs).exitStatus = 0 := rfl

theorem harnessRun_lines :
    (harnessRun block pairs).lines = pairs.toList.map fun p => (trialOf block p).line := rfl

@[simp] theorem harnessRun_lines_length : (harnessRun block pairs).lines.length = trialCount := by
  rw [harnessRun_lines, List.length_map, Vector.length_toList]

/-- R105: the trial of each pair is run, and its line stands in the pair's place. -/
theorem harnessRun_lines_getElem? {i : Nat} (hi : i < trialCount) :
    (harnessRun block pairs).lines[i]? = some (trialOf block pairs[i]).line := by
  rw [harnessRun_lines, List.getElem?_map, Vector.getElem?_toList, Vector.getElem?_eq_getElem hi, Option.map_some]

end

/-! ## The statements -/

/-- Settles O11: `SUB` and the step of an applied pair both answer the evaluation of the pair. -/
theorem noOperandPairStopsTheBlock : Obligations.NoOperandPairStopsTheBlock := by
  refine ⟨fun a b s => ⟨?execMachine, ?stepMachine, outcome_ne_fault (step s)⟩,
    fun W a b p => ⟨?execBlock, ?stepBlock, outcome_ne_fault (stepAt p)⟩⟩
  case execMachine => exact ⟨s.evaluate a b, exec_sub a b s⟩
  case stepMachine => exact ⟨s.evaluate a b, step_drivePair s a b⟩
  case execBlock => exact ⟨p.evaluate a b, execAt_sub a b p⟩
  case stepBlock => exact ⟨p.evaluate a b, stepAt_drivePair p a b⟩

/-- Settles O46: the lines are those of the trials, whose number R103 fixes at 32. -/
theorem harnessNeverStopsOnAFail : Obligations.HarnessNeverStopsOnAFail :=
  fun block pairs => ⟨harnessRun_exitStatus block pairs, harnessRun_lines_length block pairs,
    fun _ hi => harnessRun_lines_getElem? block pairs hi⟩

end Sys2Proof.Machine
end

section
/-! PROOFS, spec/70_reset_and_hazards.md: any order of driving the inputs applies the pair, and a read after the
evaluation gives the contract's value (R108). That the network's result is the contract's rests on
spec/41_prefix_network.md R84. -/

namespace Sys2Proof.Machine

section
variable {W : Nat}

/-! ## The order of driving -/

/-- R108: port `a` first and then port `b` is the pair at once. -/
@[simp] theorem Ports.drive_a_drive_b (p : Ports W) (x y : BitVec W) :
    (p.drive .a (.driven x)).drive .b (.driven y) = p.drivePair x y := rfl

/-- R108: port `b` first and then port `a` is the pair at once. -/
@[simp] theorem Ports.drive_b_drive_a (p : Ports W) (x y : BitVec W) :
    (p.drive .b (.driven y)).drive .a (.driven x) = p.drivePair x y := rfl

/-! ## Reading a settled output -/

/-- R109: a read of a settled output gives its value and changes nothing. -/
theorem Ports.readResult_of_settledTo {p : Ports W} {v : BitVec W} (h : p.settledTo v) (k : Nat) :
    p.readResult k = (v, p) := by
  obtain ⟨w, hw, hread⟩ | ⟨hsettling, -⟩ := p.readResult_cases k
  · obtain rfl : v = w := Output.settled.inj (h.symm.trans hw)
    exact hread
  · cases h.symm.trans hsettling

/-- R84: an evaluation settles the output to the contract's value. -/
theorem Ports.evaluate_settledTo (p : Ports W) (x y : BitVec W) : (p.evaluate x y).settledTo (subtract x y) :=
  (p.evaluate_result x y).trans (congrArg Output.settled (networkSub_eq_subtract x y))

/-- R108: the read after an evaluation. -/
@[simp] theorem Ports.readResult_evaluate (p : Ports W) (x y : BitVec W) (k : Nat) :
    (p.evaluate x y).readResult k = (subtract x y, p.evaluate x y) :=
  readResult_of_settledTo (p.evaluate_settledTo x y) k

end

/-! ## The statement -/

/-- Settles O16: each order of driving writes both inputs, and the evaluation of the pair settles the output that
is then read. The machine's ports are those of a block of its width. -/
theorem drivingOrderDoesNotMatter : Obligations.DrivingOrderDoesNotMatter := by
  refine ⟨fun W k p x y => ⟨p.drive_a_drive_b x y, p.drive_b_drive_a x y, ?evaluateBlock⟩,
    fun k s x y => ⟨State.ext_ports (s.drive_a_drive_b x y), State.ext_ports (s.drive_b_drive_a x y),
      ?evaluateMachine⟩⟩
  case evaluateBlock => exact ⟨p.evaluate x y, stepAt_drivePair p x y, p.readResult_evaluate x y k⟩
  case evaluateMachine => exact ⟨s.evaluate x y, step_drivePair s x y, s.readResult_evaluate x y k⟩

end Sys2Proof.Machine
end

section
/-! PROOFS, spec/30_encoding.md: decoding and encoding agree in both directions (R43, R46), and the words written
out in spec/95_test_vectors.md decode. -/

namespace Sys2Proof

open Sys2Proof.Machine

section
variable {W : Nat}

/-! ## The fields and the packing -/

/-- R43: bit `i` of the packed pair lies in the subtrahend below bit `W`, and in the minuend from there on. -/
theorem packOperands_getLsbD (a b : BitVec W) (i : Nat) :
    (packOperands a b).getLsbD i = if i < W then b.getLsbD i else a.getLsbD (i - W) := by
  rw [packOperands, BitVec.getLsbD_cast, BitVec.getLsbD_append]

/-- R43: the two fields of a word make up the word. -/
@[simp] theorem packOperands_fields (op : BitVec (2 * W)) :
    packOperands (minuendField op) (subtrahendField op) = op := by
  refine BitVec.eq_of_getLsbD_eq fun i hi => ?_
  rw [packOperands_getLsbD]
  split
  case isTrue hlow => exact subtrahendField_getLsbD op hlow
  case isFalse hlow =>
    have hmin : i - W < W := by omega
    rw [minuendField_getLsbD op hmin, Nat.add_sub_cancel' (Nat.le_of_not_lt hlow)]

/-! ## The decoder and the encoder of a block -/

@[simp] theorem decodeAt_encodeAt (i : BlockInstr W) : decodeAt (encodeAt i) = i := by
  cases i with
  | sub a b => exact decodeAt_packOperands a b

@[simp] theorem encodeAt_decodeAt (op : BitVec (2 * W)) : encodeAt (decodeAt op) = op :=
  packOperands_fields op

end

/-! ## The decoder and the encoder of the machine -/

/-- R7: the machine's instructions are those of a block of its width. -/
@[simp] theorem Instr.ofBlock_toBlock (i : Instr) : Instr.ofBlock i.toBlock = i := by
  cases i with
  | sub a b => rfl

@[simp] theorem Instr.toBlock_ofBlock (i : BlockInstr Config.width) : (Instr.ofBlock i).toBlock = i := by
  cases i with
  | sub a b => rfl

@[simp] theorem decode_encode (i : Instr) : decode (encode i) = i := by
  rw [decode, encode, decodeAt_encodeAt, Instr.ofBlock_toBlock]

@[simp] theorem encode_decode (op : OpWord) : encode (decode op) = op := by
  rw [encode, decode, Instr.toBlock_ofBlock, encodeAt_decodeAt]

/-- The numbering of the opcode table is the decoder's: bit 0 is the least significant. -/
theorem decodeTableWord_toNat (op : OpWord) :
    decodeTableWord (2 * Config.width) op.toNat = some (decode op) := by
  rw [decodeTableWord, BitVec.ofNat_toNat, BitVec.setWidth_eq, decodeBitsAt_two_mul]
  rfl

/-- A number is read as the instruction whose word it writes. -/
theorem decodeTableWord_of_toNat_encode {i : Instr} {w : Nat} (h : (encode i).toNat = w) :
    decodeTableWord (2 * Config.width) w = some i := by
  rw [← h, decodeTableWord_toNat, decode_encode]

/-! ## The statements -/

/-- Settles O2: a word is its two fields side by side, and an instruction is its two operands. -/
theorem decodeAndEncodeAgree : Obligations.DecodeAndEncodeAgree :=
  ⟨fun i => ⟨decode_encode i, decodeTableWord_of_toNat_encode rfl⟩, encode_decode,
    fun _ => decodeAt_encodeAt, fun _ => encodeAt_decodeAt,
    fun _ a b => ⟨minuendField_packOperands a b, subtrahendField_packOperands a b⟩, fun _ => packOperands_fields⟩

/-- Settles O3: each word is the encoding of the operands that the vector lists. -/
theorem writtenOutWordsDecode : Obligations.WrittenOutWordsDecode := by
  refine ⟨decodeTableWord_of_toNat_encode ?v1, decodeTableWord_of_toNat_encode ?v3,
    decodeTableWord_of_toNat_encode ?v5, decodeTableWord_of_toNat_encode ?v22⟩
  case v1 => decide
  case v3 => decide
  case v5 => decide
  case v22 => decide

end Sys2Proof
end

section
/-! PROOFS, spec/10_state.md and spec/70_reset_and_hazards.md: what one step does with what the ports hold (R28,
R34, R46, R111), that the machine is the block at its width (R7), what the result depends on (R17, R61), the
coherence of the ports (R17, R109), and early reads (R110). -/

namespace Sys2Proof.Machine

section
variable {W : Nat}

/-! ## The word that the ports present -/

theorem stepAt_of_presented_ok {p : Ports W} {op : BitVec (2 * W)} (h : p.presented = .ok op) :
    stepAt p = execAt (decodeAt op) p := by
  rw [stepAt, h]

theorem step_of_presented_ok {s : State} {op : OpWord} (h : s.presented = .ok op) :
    step s = exec (decode op) s := by
  rw [step, h]

/-- R43, R46: the word that has been presented is the word that the ports present. -/
@[simp] theorem Ports.presentWord_presented (p : Ports W) (op : BitVec (2 * W)) :
    (p.presentWord (2 * W) op.toNat).presented = .ok op := by
  rw [presented_of_holdsPair (p.presentWord_holdsPair op), packOperands_fields]

/-- R34: the step of the machine evaluates the pair that its ports hold. -/
theorem step_of_holdsPair {s : State} {x y : Word} (h : s.holdsPair x y) : step s = .next (s.evaluate x y) :=
  step_next_iff.2 (stepAt_of_holdsPair h)

/-! ## Broken duties -/

/-- R28, R111: a broken duty refuses the step of a block. -/
theorem stepAt_of_dutyBroken {p : Ports W} {r : Refusal} (h : p.dutyBroken = some r) : stepAt p = .refused r :=
  stepAt_of_presented_error ((p.presented_error_iff r).2 h)

/-- R28, R111: a broken duty refuses the step of the machine. -/
theorem step_of_dutyBroken {s : State} {r : Refusal} (h : s.dutyBroken = some r) : step s = .refused r :=
  step_of_presented_error ((s.presented_error_iff r).2 h)

/-- R108: where no duty is broken, both ports hold words. -/
theorem Ports.exists_holdsPair_of_dutyBroken_eq_none {p : Ports W} (h : p.dutyBroken = none) :
    ∃ x y, p.holdsPair x y := by
  cases hp : p.presented with
  | error r => exact absurd ((p.presented_error_iff r).1 hp) (by simp [h])
  | ok op =>
    obtain ⟨x, y, hpair, -⟩ := presented_ok_cases hp
    exact ⟨x, y, hpair⟩

/-! ## Coherence -/

/-- R110: nothing is asked of ports whose output is settling. -/
theorem Ports.coherent_of_settling {p : Ports W} (h : p.result = .settling) : p.Coherent := by
  intro v hsettled
  cases h.symm.trans hsettled

/-- R84, R109: the output of an evaluation is the contract's function of the pair it leaves on the ports. -/
theorem Ports.evaluate_coherent (p : Ports W) (x y : BitVec W) : (p.evaluate x y).Coherent :=
  fun _ hsettled =>
    ⟨x, y, p.evaluate_holdsPair x y, Output.settled.inj (hsettled.symm.trans (p.evaluate_settledTo x y))⟩

/-- R102, R110: a read changes nothing where the output has settled, and leaves it settling where not. -/
theorem Ports.Coherent.readResult {p : Ports W} (h : p.Coherent) (k : Nat) : (p.readResult k).2.Coherent := by
  obtain ⟨v, -, hread⟩ | ⟨hsettling, hread⟩ := p.readResult_cases k
  · rwa [hread]
  · rw [hread]
    exact coherent_of_settling hsettling

/-- A step is an evaluation, whatever the ports held before it. -/
theorem coherent_of_stepAt {p q : Ports W} (h : stepAt p = .next q) : q.Coherent := by
  obtain ⟨x, y, -, rfl⟩ := stepAt_next_iff.1 h
  exact p.evaluate_coherent x y

theorem Ports.Coherent.hostAct {k : Nat} {act : HostAction W} {p q : Ports W} {v : Option (BitVec W)}
    (hp : p.Coherent) (h : hostAct k act p = .next (q, v)) : q.Coherent := by
  obtain ⟨port, d, -, rfl, -⟩ | ⟨x, y, -, rfl, -⟩ | ⟨-, hstep, -⟩ | ⟨-, rfl, -⟩ := hostAct_next_cases h
  case inl => exact coherent_of_settling (p.drive_result port d)
  case inr.inl => exact coherent_of_settling (p.drivePair_result x y)
  case inr.inr.inl => exact coherent_of_stepAt hstep
  case inr.inr.inr => exact hp.readResult k

/-! ## Early reads -/

/-- R110: a read of an output that is settling gives the free value and counts it. -/
theorem Ports.readResult_of_settling {p : Ports W} (h : p.result = .settling) (k : Nat) :
    p.readResult k = (Config.unsettledResult W k p, { p with draws := p.draws + 1 }) := by
  obtain ⟨v, hsettled, -⟩ | ⟨-, hread⟩ := p.readResult_cases k
  · cases h.symm.trans hsettled
  · exact hread

end

/-! ## The statements -/

/-- Settles O18: a step leaves an evaluation behind, driving leaves the output settling, and a read changes no
settled output. -/
theorem coherenceIsKept : Obligations.CoherenceIsKept :=
  ⟨fun _ _ _ h => coherent_of_stepAt (step_next_iff.1 h),
    fun _ _ hp => ⟨fun _ => coherent_of_stepAt, fun _ _ _ _ => hp.hostAct⟩⟩

/-- Settles O13: no word is presented exactly where a duty is broken, and any other ports hold a pair. -/
theorem stepRefusesExactlyBrokenDuties : Obligations.StepRefusesExactlyBrokenDuties := by
  refine ⟨fun s => ?machine, fun W p => ?block⟩
  case machine =>
    split
    case h_1 r hbroken => exact step_of_dutyBroken hbroken
    case h_2 hkept =>
      obtain ⟨x, y, hpair⟩ := Ports.exists_holdsPair_of_dutyBroken_eq_none hkept
      exact ⟨x, y, s.evaluate x y, hpair, step_of_holdsPair hpair, s.evaluate_settledTo x y⟩
  case block =>
    split
    case h_1 r hbroken => exact stepAt_of_dutyBroken hbroken
    case h_2 hkept =>
      obtain ⟨x, y, hpair⟩ := Ports.exists_holdsPair_of_dutyBroken_eq_none hkept
      exact ⟨x, y, p.evaluate x y, hpair, stepAt_of_holdsPair hpair, p.evaluate_settledTo x y⟩

/-- Settles O14: both steps evaluate the pair that both states hold. -/
theorem resultDependsOnThePairAlone : Obligations.ResultDependsOnThePairAlone := by
  refine ⟨fun s t x y hs ht => ?machine, fun W p q x y hp hq => ?block⟩
  case machine =>
    exact ⟨s.evaluate x y, t.evaluate x y, step_of_holdsPair hs, step_of_holdsPair ht,
      (s.evaluate_result x y).trans (t.evaluate_result x y).symm, s.evaluate_settledTo x y⟩
  case block =>
    exact ⟨p.evaluate x y, q.evaluate x y, stepAt_of_holdsPair hp, stepAt_of_holdsPair hq,
      (p.evaluate_result x y).trans (q.evaluate_result x y).symm, p.evaluate_settledTo x y⟩

/-- Settles O8: the step runs the word that the ports present, which for a presented instruction is its encoding. -/
theorem stepRunsThePresentedInstruction : Obligations.StepRunsThePresentedInstruction := by
  refine ⟨fun s op => step_of_presented_ok, fun s x y => step_of_holdsPair, fun s i => ?machine,
    fun W p op => stepAt_of_presented_ok, fun W p x y => stepAt_of_holdsPair, fun W p i => ?block⟩
  case machine =>
    have hword : (s.withFetchWord (2 * Config.width) (encode i).toNat).presented = .ok (encode i) :=
      s.presentWord_presented (encode i)
    rw [step_of_presented_ok hword, decode_encode]
  case block => rw [stepAt_of_presented_ok (p.presentWord_presented (encodeAt i)), decodeAt_encodeAt]

/-- Settles O9, by the correspondence of the instructions and of their meanings. -/
theorem machineIsTheInstanceAt32 : Obligations.MachineIsTheInstanceAt32 := by
  refine ⟨rfl, fun i s => ?exec, step_eq_liftOutcome, State.reset_toPorts,
    fun op => Instr.toBlock_ofBlock (decodeAt op), Instr.ofBlock_toBlock, Instr.toBlock_ofBlock⟩
  case exec => rw [← exec_ofBlock, Instr.ofBlock_toBlock]

/-- Settles O17: a connection leaves the output settling and the counter as it was. -/
theorem earlyReadGivesAFreeValue : Obligations.EarlyReadGivesAFreeValue := by
  refine fun W k p port d => ⟨p.drive_result port d, ?read⟩
  case read => rw [Ports.readResult_of_settling (p.drive_result port d), p.drive_draws]

/-- Settles O19: at power-up the output is settling. -/
theorem resetIsCoherent : Obligations.ResetIsCoherent :=
  ⟨Ports.coherent_of_settling rfl, fun _ => Ports.coherent_of_settling rfl⟩

end Sys2Proof.Machine
end

section
/-! PROOFS, spec/60_exceptions.md: instances share nothing (R38, R96), so that evaluations that overlap do not
interact. -/

namespace Sys2Proof.Machine

section
variable {W : Nat}

/-! ## Actions on two instances -/

/-- R96: two actions on two instances may be made in the other order, with the same outcome and the same reads. -/
theorem actInstance_swap {j k : Nat} (hne : j ≠ k) {act act' : HostAction W} {blocks mid out : List (Ports W)}
    {v v' : Option (BitVec W)} (hj : actInstance j act blocks = .ok (mid, v))
    (hk : actInstance k act' mid = .ok (out, v')) :
    ∃ mid', actInstance k act' blocks = .ok (mid', v') ∧ actInstance j act mid' = .ok (out, v) := by
  obtain ⟨p, t, hp, ht, rfl⟩ := actInstance_ok_cases hj
  obtain ⟨q, u, hq, hu, rfl⟩ := actInstance_ok_cases hk
  rw [List.getElem?_set_ne hne] at hq
  refine ⟨blocks.set k u, actInstance_of_hostAct hq hu, ?_⟩
  rw [List.set_comm t u hne]
  exact actInstance_of_hostAct (by rwa [List.getElem?_set_ne hne.symm]) ht

/-! ## Runs -/

/-- A run of several actions that is not stopped makes the first and then runs the rest. -/
theorem runInstances_cons_ok_cases {k : Nat} {act : HostAction W} {rest : List (Nat × HostAction W)}
    {blocks out : List (Ports W)} {reads : List (Nat × BitVec W)}
    (h : runInstances ((k, act) :: rest) blocks = .ok (out, reads)) :
    ∃ mid v later, actInstance k act blocks = .ok (mid, v) ∧ runInstances rest mid = .ok (out, later)
      ∧ reads = v.toList.map (fun x => (k, x)) ++ later := by
  rw [runInstances] at h
  split at h
  case h_1 => cases h
  case h_2 mid v hact =>
    split at h
    case h_1 => cases h
    case h_2 hrest =>
      cases h
      exact ⟨mid, v, _, hact, hrest, rfl⟩

@[simp] theorem runAlone_nil (k : Nat) (p : Ports W) : runAlone k [] p = .next (p, []) := rfl

theorem runAlone_cons_of_hostAct {k : Nat} {act : HostAction W} {rest : List (HostAction W)} {p mid out : Ports W}
    {v : Option (BitVec W)} {reads : List (BitVec W)} (hact : hostAct k act p = .next (mid, v))
    (hrest : runAlone k rest mid = .next (out, reads)) :
    runAlone k (act :: rest) p = .next (out, v.toList ++ reads) := by
  simp [runAlone, hact, hrest]

/-! ## The part of a run that one block has in it -/

@[simp] theorem actionsOn_nil (k : Nat) : actionsOn k ([] : List (Nat × HostAction W)) = [] := rfl

@[simp] theorem actionsOn_cons_self (k : Nat) (act : HostAction W) (rest : List (Nat × HostAction W)) :
    actionsOn k ((k, act) :: rest) = act :: actionsOn k rest := by
  simp [actionsOn]

theorem actionsOn_cons_of_ne {j k : Nat} (hne : j ≠ k) (act : HostAction W) (rest : List (Nat × HostAction W)) :
    actionsOn k ((j, act) :: rest) = actionsOn k rest := by
  simp [actionsOn, hne]

@[simp] theorem readsOf_nil (k : Nat) : readsOf k ([] : List (Nat × BitVec W)) = [] := rfl

@[simp] theorem readsOf_append_self (k : Nat) (v : Option (BitVec W)) (later : List (Nat × BitVec W)) :
    readsOf k (v.toList.map (fun x => (k, x)) ++ later) = v.toList ++ readsOf k later := by
  cases v with
  | none => rfl
  | some x => simp [readsOf]

theorem readsOf_append_of_ne {j k : Nat} (hne : j ≠ k) (v : Option (BitVec W)) (later : List (Nat × BitVec W)) :
    readsOf k (v.toList.map (fun x => (j, x)) ++ later) = readsOf k later := by
  cases v with
  | none => rfl
  | some x => simp [readsOf, hne]

/-- R38, R96: what a run does to one of several blocks, that block's own actions do to it alone. -/
theorem runAlone_of_runInstances {k : Nat} {script : List (Nat × HostAction W)} {blocks out : List (Ports W)}
    {reads : List (Nat × BitVec W)} {p : Ports W} (h : runInstances script blocks = .ok (out, reads))
    (hp : blocks[k]? = some p) :
    ∃ q, out[k]? = some q ∧ runAlone k (actionsOn k script) p = .next (q, readsOf k reads) := by
  induction script generalizing blocks reads p with
  | nil =>
    cases h
    rw [actionsOn_nil, readsOf_nil]
    exact ⟨p, hp, runAlone_nil k p⟩
  | cons e rest ih =>
    obtain ⟨j, act⟩ := e
    obtain ⟨mid, v, later, hact, hrest, rfl⟩ := runInstances_cons_ok_cases h
    obtain ⟨p', t, hp', ht, rfl⟩ := actInstance_ok_cases hact
    by_cases hjk : j = k
    case pos =>
      subst hjk
      obtain rfl : p' = p := Option.some.inj (hp'.symm.trans hp)
      have hset : (blocks.set j t)[j]? = some t :=
        List.getElem?_set_self (List.getElem?_eq_some_iff.1 hp).1
      obtain ⟨q, hq, halone⟩ := ih hrest hset
      rw [actionsOn_cons_self, readsOf_append_self]
      exact ⟨q, hq, runAlone_cons_of_hostAct ht halone⟩
    case neg =>
      rw [actionsOn_cons_of_ne hjk, readsOf_append_of_ne hjk]
      exact ih hrest (by rwa [List.getElem?_set_ne hjk])

end

/-! ## The statements -/

/-- Settles O20: an action writes one place of the list, and writes to two places commute. -/
theorem instancesAreIndependent : Obligations.InstancesAreIndependent := by
  refine ⟨fun W k act blocks out v h => ?frame, fun W j k act act' blocks out v v' hne => ⟨?swap, ?swapBack⟩⟩
  case frame =>
    obtain ⟨p, t, hp, ht, rfl⟩ := actInstance_ok_cases h
    exact ⟨List.length_set, fun j hj => List.getElem?_set_ne hj.symm, p, t, hp, ht,
      List.getElem?_set_self (List.getElem?_eq_some_iff.1 hp).1⟩
  case swap => exact fun ⟨_, hj, hk⟩ => actInstance_swap hne hj hk
  case swapBack => exact fun ⟨_, hk, hj⟩ => actInstance_swap hne.symm hk hj

/-- Settles O21, by induction on the run: each action is the block's own or leaves its place alone. -/
theorem overlappingEvaluationsDoNotInteract : Obligations.OverlappingEvaluationsDoNotInteract :=
  fun _ _ _ _ _ _ _ => runAlone_of_runInstances

end Sys2Proof.Machine
end

section
/-! PROOFS, spec/30_encoding.md R52 and spec/60_exceptions.md R103, R104: what the steps of a host program do, and
the verdict of a trial. That the network's result is the contract's rests on spec/41_prefix_network.md R84. -/

namespace Sys2Proof.Machine

section
variable {W : Nat}

/-! ## The steps of a host program -/

@[simp] theorem operandValue_lit (held : List (Nat × BitVec W)) (v : BitVec W) :
    operandValue held (.lit v) = .ok v := rfl

theorem operandValue_held {held : List (Nat × BitVec W)} {k : Nat} {u : BitVec W} (h : heldValue k held = some u) :
    operandValue held (.held k) = .ok u := by
  rw [operandValue, h]

/-- R52: the host runs the step that stands at its line. -/
theorem hostStep_of_getElem? {prog : List (HostStep W)} {h : HostState W} {n : Nat} {i : HostStep W}
    (hrun : h.halted = false) (hline : h.line = n + 1) (hi : prog[n]? = some i) :
    hostStep prog h = runHostStep i h := by
  simp [hostStep, hrun, hline, hi]

/-- R52: the host's evaluation reads the contract's value. -/
theorem hostEvaluate_eq (x y : BitVec W) (block : Ports W) :
    hostEvaluate x y block = .ok (subtract x y, block.evaluate x y) := by
  rw [hostEvaluate_of_stepAt (stepAt_drivePair block x y), Ports.readResult_evaluate]

theorem hostSubtract_eq (k : Nat) (x y : BitVec W) (h : HostState W) :
    hostSubtract k x y h
      = .ok { h with
          line := h.line + 1, held := holdValue k (subtract x y) h.held, block := h.block.evaluate x y } := by
  rw [hostSubtract, hostEvaluate_eq]

theorem runHostStep_sub {h : HostState W} {x y : HostOperand W} {u v : BitVec W}
    (hx : operandValue h.held x = .ok u) (hy : operandValue h.held y = .ok v) (k : Nat) :
    runHostStep (.sub k x y) h = hostSubtract k u v h := by
  simp [runHostStep, hx, hy]

theorem runHostStep_ifEq {h : HostState W} {k : Nat} {v : HostOperand W} {u w : BitVec W}
    (hk : heldValue k h.held = some u) (hv : operandValue h.held v = .ok w) (line : Nat) :
    runHostStep (.ifEq k v line) h = .ok { h with line := if u = w then line else h.line + 1 } := by
  simp only [runHostStep, operandValue_held hk, hv]
  split
  case isTrue => rfl
  case isFalse => rfl

end

/-! ## The verdict of a trial -/

/-- R53, R104: the native subtraction that a trial expects is the contract. -/
theorem trialOf_passes_iff (block : Word → Word → Word) (a b : Word) :
    (trialOf block (a, b)).passes = true ↔ block a b = subtract a b := by
  rw [subtract_eq_sub, Trial.passes, beq_iff_eq, trialOf]

/-! ## The statements -/

/-- Settles O43: the step at the line evaluates the pair, and the host holds what it reads. -/
theorem hostSubStepHoldsTheDifference : Obligations.HostSubStepHoldsTheDifference := by
  intro W prog h n k x y u v hrun hline hi hx hy
  refine ⟨_, ((hostStep_of_getElem? hrun hline hi).trans (runHostStep_sub hx hy k)).trans (hostSubtract_eq k u v h),
    rfl, hrun, heldValue_holdValue_self k _ _, fun j hj => heldValue_holdValue_of_ne hj _ _,
    h.block.evaluate_holdsPair u v, h.block.evaluate_settledTo u v, h.block.evaluate_draws u v⟩

/-- Settles O47: the network's result is the contract's (R84). -/
theorem harnessPassesOnTheBlock : Obligations.HarnessPassesOnTheBlock :=
  ⟨fun a b => (trialOf_passes_iff networkSub a b).2 (networkSub_eq_subtract a b), trialOf_passes_iff⟩

/-- Settles O44: the literal `0` is always a value, so that both steps look only at `y`. -/
theorem hostNegIsSubFromZero : Obligations.HostNegIsSubFromZero := by
  intro W k y h
  rw [runHostStep, runHostStep, operandValue_lit]

/-- Settles O45, step by step: each writes the line or ends the program. -/
theorem hostControlFlowLeavesTheBlock : Obligations.HostControlFlowLeavesTheBlock :=
  fun _ _ _ line _ => ⟨rfl, rfl, fun _ _ hk hv => runHostStep_ifEq hk hv line⟩

end Sys2Proof.Machine
end
